-- ==== Sys2Proof/Word.lean ====
section
/-! DEFINITION. The word, byte and field types of the flote-mips core (spec/00_scope.md R5 to R7) and the normalisation
to 16 bits that its arithmetic uses. -/

namespace Sys2Proof

/-- A 16-bit value: a register, the program counter, an address, an instruction word (R5, `XLEN`, `ILEN`). -/
abbrev Word := BitVec 16

/-- One memory cell's content (10_state.md R23). -/
abbrev Byte := BitVec 8

/-- A 4-bit register field; the value `i` selects `x[i]` directly (10_state.md R11). -/
abbrev RegNum := BitVec 4

/-- The 4-bit immediate field `instr[3:0]` (30_encoding.md R52). -/
abbrev Imm4 := BitVec 4

/-- `norm16(n)` of R7 for a natural number: the 16-bit vector spelling `n mod 2^16`. -/
def norm16 (n : Nat) : Word := BitVec.ofNat 16 n

/-- `norm16(n)` of R7 for an integer. -/
def norm16Int (n : Int) : Word := BitVec.ofInt 16 n

end Sys2Proof
end

