-- ==== Sys2Proof/Machine/Flags.lean ====
section
/-! DEFINITION. The one condition signal of the core. There are no flags as state (spec/10_state.md R19): no carry, borrow,
negative or overflow exists, and no instruction writes a flag. -/

namespace Sys2Proof.Machine

/-- `zero`: all sixteen bits of the ALU result are 0; combinational, read by the next-pc logic alone (R19; 40_blocks.md R73). -/
def zeroSignal (aluResult : Word) : Bool := aluResult == 0

end Sys2Proof.Machine
end

