-- ==== Sys2Proof/Machine/Alu.lean ====
section
/-! DEFINITION. The arithmetic-logic unit (spec/40_blocks.md R73 to R79). -/

namespace Sys2Proof.Machine

/-- `op = 000`: the sum, its low-order 16 bits (R74). -/
def aluAdd (a b : Word) : Word := norm16 (a.toNat + b.toNat)

/-- `op = 001`: the difference, wrapped modulo 2^16 when `a < b` (R75; DESIGN CHOICE of the spec, D5, log 4; unsafe). -/
def aluSub (a b : Word) : Word := norm16Int ((a.toNat : Int) - (b.toNat : Int))

/-- `op = 010`: bitwise AND (R76). -/
def aluAnd (a b : Word) : Word := a &&& b

/-- `op = 011`: bitwise OR (R77). -/
def aluOr (a b : Word) : Word := a ||| b

/-- `op = 100`: 1 when `unsigned(a) < unsigned(b)`, else 0 (R78; unsigned by 90_conflicts.md C3, log 15). -/
def aluSlt (a b : Word) : Word := if a.toNat < b.toNat then 1 else 0

/-- The ALU over its 3-bit selector; none for the three codes that have no defined result (R79, log 13). -/
def alu (a b : Word) (op : BitVec 3) : Option Word :=
  match op with
  | 0b000#3 => some (aluAdd a b)
  | 0b001#3 => some (aluSub a b)
  | 0b010#3 => some (aluAnd a b)
  | 0b011#3 => some (aluOr a b)
  | 0b100#3 => some (aluSlt a b)
  | _ => none

end Sys2Proof.Machine
end

