-- ==== Sys2Proof/Syntax.lean ====
section
/-! DEFINITION. The instructions: one constructor per row of spec/opcode_table.json, operands in the order of the
assembly forms of 30_encoding.md R60. -/

namespace Sys2Proof

/-- The flote-mips instruction set (30_encoding.md R51, R55) with its two reserved rows. -/
inductive Instr where
  /-- ADD `$rd,$rs,$rt` (41_alu_register.md R110). -/
  | add (rd rs rt : RegNum)
  /-- SUB `$rd,$rs,$rt` (R111). -/
  | sub (rd rs rt : RegNum)
  /-- AND `$rd,$rs,$rt` (R112). -/
  | and (rd rs rt : RegNum)
  /-- OR `$rd,$rs,$rt` (R113). -/
  | or (rd rs rt : RegNum)
  /-- SLT `$rd,$rs,$rt` (R114). -/
  | slt (rd rs rt : RegNum)
  /-- ADDI `$rt,$rs,imm` (42_immediate.md R120). -/
  | addi (rt rs : RegNum) (imm4 : Imm4)
  /-- LW `$rt, imm($rs)` (43_load_store.md R125). -/
  | lw (rt rs : RegNum) (imm4 : Imm4)
  /-- SW `$rt, imm($rs)` (R126). -/
  | sw (rt rs : RegNum) (imm4 : Imm4)
  /-- BEQ `$rs,$rt,off` (44_control_transfer.md R135). -/
  | beq (rs rt : RegNum) (imm4 : Imm4)
  /-- JUMP `field` (R136). -/
  | jump (field12 : BitVec 12)
  /-- RSVD_101x: reserved opcodes 1010 and 1011 (45_reserved_opcodes.md R145); the opcode and the ignored twelve bits. -/
  | rsvd101x (opcode : BitVec 4) (ignored : BitVec 12)
  /-- RSVD_11xx: reserved opcodes 1100 to 1111 (R145). -/
  | rsvd11xx (opcode : BitVec 4) (ignored : BitVec 12)
deriving DecidableEq, Repr

end Sys2Proof
end

