-- ==== Sys2Proof/WellFormed.lean ====
section
/-! DEFINITION. Which instruction terms stand for a word of the hardware. Every register number, immediate and jump field
of the right width is legal in every position (spec/30_encoding.md R57), and the widths are in the types (R157); the one
thing a term can get wrong is a reserved row's opcode. -/

namespace Sys2Proof

/-- The term's fields are ones its row of spec/opcode_table.json admits. -/
def Instr.wellFormed : Instr → Bool
  | .add _ _ _ => true
  | .sub _ _ _ => true
  | .and _ _ _ => true
  | .or _ _ _ => true
  | .slt _ _ _ => true
  | .addi _ _ _ => true
  | .lw _ _ _ => true
  | .sw _ _ _ => true
  | .beq _ _ _ => true
  | .jump _ => true
  | .rsvd101x opcode _ => opcode.extractLsb' 1 3 == 0b101#3
  | .rsvd11xx opcode _ => opcode.extractLsb' 2 2 == 0b11#2

end Sys2Proof
end

