-- ==== Sys2Proof/Decode.lean ====
section
/-! DEFINITION. From words and bytes to instructions and back: the instruction decoder's field extraction
(spec/40_blocks.md R91), the opcode map (30_encoding.md R55), the encoder of the same map, the table of masks and
patterns, and the assembly forms (R60). -/

namespace Sys2Proof

/-! ## Fields (R50, R91) -/

/-- `instr[15:12]`. -/
def opcodeField (w : Word) : BitVec 4 := w.extractLsb' 12 4

/-- `instr[11:8]`. -/
def rsField (w : Word) : RegNum := w.extractLsb' 8 4

/-- `instr[7:4]`. -/
def rtField (w : Word) : RegNum := w.extractLsb' 4 4

/-- `instr[3:0]`: destination `rd`, or the 4-bit immediate. -/
def rdField (w : Word) : RegNum := w.extractLsb' 0 4

/-- `instr[11:0]`: the jump field. -/
def field12 (w : Word) : BitVec 12 := w.extractLsb' 0 12

/-! ## Decoder -/

/-- The instruction a word stands for, by its opcode alone (R55). Total: no encoding is illegal (R56). -/
def decodeWord (w : Word) : Instr :=
  match opcodeField w with
  | 0b0000#4 => .add (rdField w) (rsField w) (rtField w)
  | 0b0001#4 => .sub (rdField w) (rsField w) (rtField w)
  | 0b0010#4 => .and (rdField w) (rsField w) (rtField w)
  | 0b0011#4 => .or (rdField w) (rsField w) (rtField w)
  | 0b0100#4 => .slt (rdField w) (rsField w) (rtField w)
  | 0b0101#4 => .addi (rtField w) (rsField w) (rdField w)
  | 0b0110#4 => .lw (rtField w) (rsField w) (rdField w)
  | 0b0111#4 => .sw (rtField w) (rsField w) (rdField w)
  | 0b1000#4 => .beq (rsField w) (rtField w) (rdField w)
  | 0b1001#4 => .jump (field12 w)
  | 0b1010#4 => .rsvd101x 0b1010#4 (field12 w)
  | 0b1011#4 => .rsvd101x 0b1011#4 (field12 w)
  | 0b1100#4 => .rsvd11xx 0b1100#4 (field12 w)
  | 0b1101#4 => .rsvd11xx 0b1101#4 (field12 w)
  | 0b1110#4 => .rsvd11xx 0b1110#4 (field12 w)
  | _ => .rsvd11xx 0b1111#4 (field12 w)

/-- Why a list of bytes holds no instruction. The machine never meets it: a fetch always gives two bytes (log 17). -/
inductive DecodeError where
  /-- Fewer than the two bytes an instruction takes (R58). -/
  | truncated
deriving DecidableEq, Repr

/-- The first instruction of a list of bytes and the bytes after it; the byte at the lower address holds `instr[15:8]`
(R59). Total on any bytes. -/
def decodeBytes : List Byte → Except DecodeError (Instr × List Byte)
  | hi :: lo :: rest => .ok (decodeWord (hi ++ lo), rest)
  | [_] => .error .truncated
  | [] => .error .truncated

/-! ## Encoder -/

/-- The word of a well-formed instruction, from the encodings of 41_alu_register.md to 45_reserved_opcodes.md. -/
def encode : Instr → Word
  | .add rd rs rt => 0b0000#4 ++ rs ++ rt ++ rd
  | .sub rd rs rt => 0b0001#4 ++ rs ++ rt ++ rd
  | .and rd rs rt => 0b0010#4 ++ rs ++ rt ++ rd
  | .or rd rs rt => 0b0011#4 ++ rs ++ rt ++ rd
  | .slt rd rs rt => 0b0100#4 ++ rs ++ rt ++ rd
  | .addi rt rs imm4 => 0b0101#4 ++ rs ++ rt ++ imm4
  | .lw rt rs imm4 => 0b0110#4 ++ rs ++ rt ++ imm4
  | .sw rt rs imm4 => 0b0111#4 ++ rs ++ rt ++ imm4
  | .beq rs rt imm4 => 0b1000#4 ++ rs ++ rt ++ imm4
  | .jump field => 0b1001#4 ++ field
  | .rsvd101x opcode ignored => opcode ++ ignored
  | .rsvd11xx opcode ignored => opcode ++ ignored

/-- The high byte of a word, stored at the lower address (20_memory.md R34). -/
def hiByte (w : Word) : Byte := w.extractLsb' 8 8

/-- The low byte of a word. -/
def loByte (w : Word) : Byte := w.extractLsb' 0 8

/-- The two bytes of a word as memory holds them, high byte first (R34, R59). -/
def wordBytes (w : Word) : List Byte := [hiByte w, loByte w]

/-- The bytes of a well-formed instruction (R59). -/
def encodeBytes (i : Instr) : List Byte := wordBytes (encode i)

/-! ## The opcode table as masks and patterns (R55, opcode_table.json) -/

/-- One row: a word `w` belongs to it when `w &&& mask = pattern`. -/
structure OpcodeRow where
  mnemonic : String
  mask : Word
  pattern : Word
deriving DecidableEq, Repr

/-- The twelve rows of spec/opcode_table.json, in its order. -/
def opcodeTable : List OpcodeRow :=
  [ ⟨"ADD", 0xF000, 0x0000⟩, ⟨"SUB", 0xF000, 0x1000⟩, ⟨"AND", 0xF000, 0x2000⟩, ⟨"OR", 0xF000, 0x3000⟩,
    ⟨"SLT", 0xF000, 0x4000⟩, ⟨"ADDI", 0xF000, 0x5000⟩, ⟨"LW", 0xF000, 0x6000⟩, ⟨"SW", 0xF000, 0x7000⟩,
    ⟨"BEQ", 0xF000, 0x8000⟩, ⟨"JUMP", 0xF000, 0x9000⟩, ⟨"RSVD_101x", 0xE000, 0xA000⟩, ⟨"RSVD_11xx", 0xC000, 0xC000⟩ ]

/-- The word matches the row (R55, "As match and mask over the 16-bit word"). -/
def OpcodeRow.matchesWord (r : OpcodeRow) (w : Word) : Bool := (w &&& r.mask) == r.pattern

/-- The row an instruction belongs to. -/
def Instr.mnemonic : Instr → String
  | .add _ _ _ => "ADD"
  | .sub _ _ _ => "SUB"
  | .and _ _ _ => "AND"
  | .or _ _ _ => "OR"
  | .slt _ _ _ => "SLT"
  | .addi _ _ _ => "ADDI"
  | .lw _ _ _ => "LW"
  | .sw _ _ _ => "SW"
  | .beq _ _ _ => "BEQ"
  | .jump _ => "JUMP"
  | .rsvd101x _ _ => "RSVD_101x"
  | .rsvd11xx _ _ => "RSVD_11xx"

/-! ## Assembly forms (R60; DESIGN CHOICE of the spec for BEQ, JUMP and negative immediates, D16, log 18) -/

/-- One operand of an assembly line. -/
inductive AsmOperand where
  /-- `$n`. -/
  | reg (n : Nat)
  /-- A decimal immediate or branch offset. -/
  | imm (v : Int)
  /-- `disp($base)`. -/
  | mem (disp : Int) (base : Nat)
  /-- A jump field. -/
  | field (v : Nat)
deriving DecidableEq, Repr

/-- One line of assembly: a mnemonic with its operands, or a raw `.word` for a word no mnemonic writes (R60, R145). -/
inductive AsmLine where
  | op (mnemonic : String) (operands : List AsmOperand)
  | word (w : Nat)
deriving DecidableEq, Repr

/-- An instruction in the spec's assembly form (R60). -/
def assembly : Instr → AsmLine
  | .add rd rs rt => .op "ADD" [.reg rd.toNat, .reg rs.toNat, .reg rt.toNat]
  | .sub rd rs rt => .op "SUB" [.reg rd.toNat, .reg rs.toNat, .reg rt.toNat]
  | .and rd rs rt => .op "AND" [.reg rd.toNat, .reg rs.toNat, .reg rt.toNat]
  | .or rd rs rt => .op "OR" [.reg rd.toNat, .reg rs.toNat, .reg rt.toNat]
  | .slt rd rs rt => .op "SLT" [.reg rd.toNat, .reg rs.toNat, .reg rt.toNat]
  | .addi rt rs imm4 => .op "ADDI" [.reg rt.toNat, .reg rs.toNat, .imm imm4.toInt]
  | .lw rt rs imm4 => .op "LW" [.reg rt.toNat, .mem imm4.toInt rs.toNat]
  | .sw rt rs imm4 => .op "SW" [.reg rt.toNat, .mem imm4.toInt rs.toNat]
  | .beq rs rt imm4 => .op "BEQ" [.reg rs.toNat, .reg rt.toNat, .imm imm4.toInt]
  | .jump field => .op "JUMP" [.field field.toNat]
  | .rsvd101x opcode ignored => .word (opcode ++ ignored).toNat
  | .rsvd11xx opcode ignored => .word (opcode ++ ignored).toNat

/-- A register operand `$0` to `$15` as a field. -/
def asmReg (n : Nat) : Option RegNum := if n < 16 then some (BitVec.ofNat 4 n) else none

/-- An immediate -8 to 7 as a field, encoded as `imm mod 16` (R60). -/
def asmImm (v : Int) : Option Imm4 := if -8 ≤ v ∧ v ≤ 7 then some (BitVec.ofInt 4 v) else none

/-- `$rd,$rs,$rt` as fields. -/
def asmThree (f : RegNum → RegNum → RegNum → Instr) (d s t : Nat) : Option Instr := do
  some (f (← asmReg d) (← asmReg s) (← asmReg t))

/-- Two registers and an immediate as fields. -/
def asmTwoImm (f : RegNum → RegNum → Imm4 → Instr) (a b : Nat) (v : Int) : Option Instr := do
  some (f (← asmReg a) (← asmReg b) (← asmImm v))

/-- The instruction an assembly line stands for; none for a line R60 does not admit (a register above 15, an immediate
outside -8 to 7, a jump field above 4095). A `.word` line gives the instruction its word decodes to. -/
def assemble : AsmLine → Option Instr
  | .op "ADD" [.reg d, .reg s, .reg t] => asmThree .add d s t
  | .op "SUB" [.reg d, .reg s, .reg t] => asmThree .sub d s t
  | .op "AND" [.reg d, .reg s, .reg t] => asmThree .and d s t
  | .op "OR" [.reg d, .reg s, .reg t] => asmThree .or d s t
  | .op "SLT" [.reg d, .reg s, .reg t] => asmThree .slt d s t
  | .op "ADDI" [.reg t, .reg s, .imm v] => asmTwoImm .addi t s v
  | .op "LW" [.reg t, .mem v s] => asmTwoImm .lw t s v
  | .op "SW" [.reg t, .mem v s] => asmTwoImm .sw t s v
  | .op "BEQ" [.reg s, .reg t, .imm v] => asmTwoImm .beq s t v
  | .op "JUMP" [.field v] => if v < 4096 then some (.jump (BitVec.ofNat 12 v)) else none
  | .word w => if w < 65536 then some (decodeWord (BitVec.ofNat 16 w)) else none
  | _ => none

/-! ## The host's reading of a table word -/

/-- The word whose `nbits` lowest bits are those of `w` and whose other bits are zero, as opcode_table.json numbers
them (bit 0 is the least significant bit of the one 16-bit word). -/
def tableWord (nbits w : Nat) : Word := BitVec.ofNat 16 (w % 2 ^ nbits)

/-- The instruction the decoder reads from the bytes of a table word, laid out high byte first (R59). -/
def decodeTableWord (nbits w : Nat) : Option Instr :=
  match decodeBytes (wordBytes (tableWord nbits w)) with
  | .ok (i, _) => some i
  | .error _ => none

end Sys2Proof
end

