-- ==== Sys2Proof/Config.lean ====
section
/-! DEFINITION. The parameters of the hardware (spec/00_scope.md R5), each a named constant with the value the spec gives
or decides. -/

namespace Sys2Proof

namespace Config

/-- `XLEN`: the width of a register, the program counter, an address and an ALU operand (R5); the width of `Word`. -/
abbrev xlen : Nat := 16

/-- `ILEN`: the length of an instruction in bits (R5, 30_encoding.md R58); also the width of `Word`. -/
abbrev ilen : Nat := 16

/-- `IMM_BITS`: the width of the immediate field (R5); the width of `Imm4`. -/
abbrev immBits : Nat := 4

/-- `OPCODE_BITS`: the width of the opcode (R5). -/
abbrev opcodeBits : Nat := 4

/-- `ALU_OP_BITS`: the width of the ALU's operation selector (R5, 40_blocks.md R73). -/
abbrev aluOpBits : Nat := 3

/-- `IMEM_BYTES`: the size of the instruction memory in bytes (R5, 20_memory.md R30; DESIGN CHOICE of the spec, D14, log 11). -/
abbrev imemBytes : Nat := 32

/-- `DMEM_BYTES`: the size of the data memory in bytes (R5, 20_memory.md R30; DESIGN CHOICE of the spec, D14, log 11). -/
abbrev dmemBytes : Nat := 32

/-- `NREGS`: the number of general registers (R5, 10_state.md R11). -/
abbrev nregs : Nat := 16

/-- `PC_STEP`: the sequential increment of the program counter (R5, 30_encoding.md R58). -/
def pcStep : Word := 2

/-- What a memory cell holds that nobody has supplied or written: `0x00` (10_state.md R26;
DESIGN CHOICE of the spec, D3, log 6; unsafe). -/
def unlistedByte : Byte := 0

/-- The three 16-bit readings of the source's 17-bit jump target (R5 `JUMP_FORM`; 92_eei_decisions.md D10). -/
inductive JumpForm where
  /-- `pc[15:12] ‖ instr[10:0] ‖ 0`: the shift is inside the 12-bit field; the spec's reading (30_encoding.md R54). -/
  | shiftInField
  /-- `pc[15:13] ‖ instr[11:0] ‖ 0`: the field is kept whole and takes the place of one more bit of the pc. -/
  | keepField
  /-- `pc[14:12] ‖ instr[11:0] ‖ 0`: the 17-bit value normalised to its low 16 bits. -/
  | lowBits
deriving DecidableEq, Repr

/-- The reading the machine uses (30_encoding.md R54; DESIGN CHOICE of the spec, D10, log 5; unsafe in bits 15 to 12). -/
def jumpForm : JumpForm := .shiftInField

/-- The two program-counter variants of the source (R5 `PC_VARIANT`; 40_blocks.md R89, R90). -/
inductive PcVariant where
  /-- Variant (b): `next_pc` comes from the next-pc logic (R89). -/
  | external
  /-- Variant (a): `pc' = pc + 2` on every rising edge, the repository's reduced datapaths (R90). -/
  | selfIncrementing
deriving DecidableEq, Repr

/-- The variant specified (40_blocks.md R90; DESIGN CHOICE of the spec, D12, log 9). -/
def pcVariant : PcVariant := .external

end Config

/-- `INIT`: what a launch state is made of (R5; 10_state.md R26). The defaults are the spec's (D3, log 1). -/
structure Init where
  /-- The program, instruction `k` for bytes `2k` and `2k + 1`; at most 16 instructions fit (70_reset_and_hazards.md R172). -/
  program : List Word := []
  /-- The launch values of the registers. -/
  regs : Vector Word Config.nregs := Vector.replicate Config.nregs 0
  /-- The data cells the host sets, as (index, byte) pairs. -/
  data : List Host.Cell := []
  /-- The launch value of the program counter. -/
  pc : Word := 0
deriving DecidableEq, Repr

end Sys2Proof
end

