-- ==== Sys2Proof/Machine/State.lean ====
section
/-! DEFINITION. The complete state of the core (spec/10_state.md R10), the reasons a step can stop, and the state after
reset (R26, R27). -/

namespace Sys2Proof.Machine

/-- The clock state of one sequential element: the levels it last saw (10_state.md R25; 40_blocks.md R71). -/
structure Tracker where
  current : Bool
  previous : Bool
deriving DecidableEq, Repr

/-- The clock states of the 81 sequential elements, one independent tracker each (10_state.md R10, R25; 40_blocks.md R72). -/
structure Trackers where
  /-- The trackers of `x[0]` to `x[15]`. -/
  regs : Vector Tracker Config.nregs
  /-- The tracker of the program counter. -/
  pc : Tracker
  /-- The trackers of `IMEM[0]` to `IMEM[31]`. -/
  imem : Vector Tracker Config.imemBytes
  /-- The trackers of `DMEM[0]` to `DMEM[31]`. -/
  dmem : Vector Tracker Config.dmemBytes
deriving DecidableEq, Repr

/-- The cells of one memory unit as (index, byte) pairs; an index not listed holds `Config.unlistedByte`. The canonical
form is `Memory.wf`. -/
abbrev Memory := List Host.Cell

/-- The complete state of the core, "and nothing else" (10_state.md R10). -/
structure State where
  /-- `x[0]` to `x[15]`; register 0 is an ordinary register (R11, R12). -/
  regs : Vector Word Config.nregs
  /-- The byte address of the instruction executing in this cycle (R16). -/
  pc : Word
  /-- The instruction memory, read by fetch and written by no instruction (R23). -/
  imem : Memory
  /-- The data memory, read by LW and written by SW (R24). -/
  dmem : Memory
  /-- The clock state of every sequential element (R25). -/
  clocks : Trackers
deriving DecidableEq, Repr

/-- The machine itself has no fault (60_exceptions.md R150); the one failure the source names is the model's. -/
inductive Fault where
  /-- The ALU was given the undefined code `op` (101, 110 or 111; 40_blocks.md R79). Raised by `settle` of
  Machine/Datapath.lean alone, never by `exec` or `step`; no control word holds such a code. Safe (log 13). -/
  | unreachable (op : BitVec 3)
deriving DecidableEq, Repr

/-- Why an instruction has no meaning in the model. -/
inductive Refusal where
  /-- The instruction of this mnemonic is not modelled yet. Raised by a refused arm of `exec`; no arm is refused. Safe. -/
  | notModelled (mnemonic : String)
deriving DecidableEq, Repr

/-- The clock pair every element starts with (10_state.md R27; DESIGN CHOICE of the spec, D4, log 2). -/
def Tracker.atReset : Tracker := ⟨false, false⟩

/-- All 81 elements hold the same pair. -/
def Trackers.all (t : Tracker) : Trackers :=
  { regs := Vector.replicate Config.nregs t
    pc := t
    imem := Vector.replicate Config.imemBytes t
    dmem := Vector.replicate Config.dmemBytes t }

/-- The state after reset: pc 0, every register 0, both memories with nothing supplied, every tracker (0, 0)
(10_state.md R26, R27; DESIGN CHOICE of the spec, D3 and D4, logs 1, 2 and 10; unsafe). The host's program and presets
are added by `State.launch` of Machine/Ops.lean. -/
def State.reset : State :=
  { regs := Vector.replicate Config.nregs 0
    pc := 0
    imem := []
    dmem := []
    clocks := Trackers.all Tracker.atReset }

end Sys2Proof.Machine
end

