-- ==== Sys2Proof/Machine/Ops.lean ====
section
/-! DEFINITION. The named operations over the state: cells and words of a memory unit, registers, the program counter,
the clock trackers, the launch state. The hardware takes no exception and returns from none (spec/60_exceptions.md R150,
R154, R155), so no such operation stands here. -/

namespace Sys2Proof.Machine

/-! ## Cells of a memory unit -/

/-- The canonical form from index `lo` on: indices strictly rising and below `size`, no cell listed that holds what an
unlisted cell holds. -/
def Memory.wfFrom (lo size : Nat) : Memory → Bool
  | [] => true
  | (a, b) :: rest => decide (lo ≤ a) && decide (a < size) && b != Config.unlistedByte && Memory.wfFrom (a + 1) size rest

/-- The canonical form of a memory unit of `size` bytes; equal contents are then equal data. -/
def Memory.wf (size : Nat) (m : Memory) : Bool := Memory.wfFrom 0 size m

/-- The byte cell `i` holds. -/
def Memory.readByte : Memory → Nat → Byte
  | [], _ => Config.unlistedByte
  | (a, b) :: rest, i => if a = i then b else Memory.readByte rest i

/-- Cell `i` no longer listed. -/
def Memory.eraseCell (i : Nat) : Memory → Memory
  | [] => []
  | (a, b) :: rest => if a = i then Memory.eraseCell i rest else (a, b) :: Memory.eraseCell i rest

/-- Cell `i` listed at its place in the rising order. -/
def Memory.insertCell (i : Nat) (v : Byte) : Memory → Memory
  | [] => [(i, v)]
  | (a, b) :: rest => if i < a then (i, v) :: (a, b) :: rest else (a, b) :: Memory.insertCell i v rest

/-- Cell `i` holds `v`; the value an unlisted cell holds is not listed. -/
def Memory.writeByte (m : Memory) (i : Nat) (v : Byte) : Memory :=
  if v = Config.unlistedByte then m.eraseCell i else (m.eraseCell i).insertCell i v

/-! ## Words of a memory unit (20_memory.md R31 to R35) -/

/-- The cell an address names: every address is reduced modulo the size, for reads and writes alike (R31). -/
def cellIndex (size : Nat) (addr : Word) : Nat := addr.toNat % size

/-- The cell after the one an address names, wrapping at the array boundary (R31). -/
def nextCellIndex (size : Nat) (addr : Word) : Nat := (addr.toNat + 1) % size

/-- Word read, high byte first, at any address (R32, R34, R35). -/
def Memory.readWord (size : Nat) (m : Memory) (addr : Word) : Word :=
  m.readByte (cellIndex size addr) ++ m.readByte (nextCellIndex size addr)

/-- Word write: the addressed cell takes the high byte, the next cell the low byte (R33). -/
def Memory.writeWord (size : Nat) (m : Memory) (addr : Word) (v : Word) : Memory :=
  (m.writeByte (nextCellIndex size addr) (loByte v)).writeByte (cellIndex size addr) (hiByte v)

/-! ## Registers (10_state.md R11 to R15) -/

/-- The stored value of register `r`; register 0 is like any other (R12). -/
def State.readReg (s : State) (r : RegNum) : Word := s.regs[r.toNat]'r.isLt

/-- Register `r` takes `v` (R14); register 0 is like any other (R12). -/
def State.writeReg (s : State) (r : RegNum) (v : Word) : State := { s with regs := s.regs.set r.toNat v r.isLt }

/-! ## Program counter (R16, R17) -/

/-- The program counter takes `target`. -/
def State.setPc (s : State) (target : Word) : State := { s with pc := target }

/-- `pc_plus2 = norm16(pc + 2)` (40_blocks.md R89). -/
def pcPlus2 (pc : Word) : Word := pc + Config.pcStep

/-- The program counter advances to the next instruction in sequence (10_state.md R17). -/
def State.advance (s : State) : State := s.setPc (pcPlus2 s.pc)

/-! ## Data memory and fetch -/

/-- `MemRead(a, 2)` (20_memory.md R32). -/
def State.loadWord (s : State) (addr : Word) : Word := s.dmem.readWord Config.dmemBytes addr

/-- `MemWrite(a, 2, v)` (20_memory.md R33). -/
def State.storeWord (s : State) (addr v : Word) : State := { s with dmem := s.dmem.writeWord Config.dmemBytes addr v }

/-- `IMemRead(pc, 2)`: the word at the program counter (40_blocks.md R86). -/
def State.fetchWord (s : State) : Word := s.imem.readWord Config.imemBytes s.pc

/-- The two bytes of the fetched word, the cell at the program counter first (30_encoding.md R59). -/
def State.fetchBytes (s : State) : List Byte :=
  [s.imem.readByte (cellIndex Config.imemBytes s.pc), s.imem.readByte (nextCellIndex Config.imemBytes s.pc)]

/-! ## Clock trackers (40_blocks.md R71, R72) -/

/-- `on_clock(new_level)`: the pair after a level is presented (R71). -/
def Tracker.onClock (t : Tracker) (level : Bool) : Tracker :=
  if level ≠ t.current then { previous := t.current, current := level } else t

/-- What `on_clock(new_level)` returns: a 0-to-1 transition in this very call (R71). -/
def Tracker.fires (t : Tracker) (level : Bool) : Bool :=
  level != t.current && (!(t.onClock level).previous && (t.onClock level).current)

/-- Every element's own tracker sees the same level (R72). -/
def Trackers.onClock (c : Trackers) (level : Bool) : Trackers :=
  { regs := Vector.ofFn fun i => (c.regs.get i).onClock level
    pc := c.pc.onClock level
    imem := Vector.ofFn fun i => (c.imem.get i).onClock level
    dmem := Vector.ofFn fun i => (c.dmem.get i).onClock level }

/-- The trackers after one clock period, a low half-cycle and then a high one (70_reset_and_hazards.md R183): whatever a pair
was, `on_clock` leaves it with current 0 and then with (1, 0) (R71). Laws/Ops.lean proves that this is what the two calls
give, from every pair (`Trackers.onClock_low_high`). -/
def Trackers.afterPeriod : Trackers := Trackers.all ⟨true, false⟩

/-- The state with its trackers moved over one clock period; nothing else changes. -/
def State.tickClocks (s : State) : State := { s with clocks := Trackers.afterPeriod }

/-! ## Launch state (10_state.md R26; 70_reset_and_hazards.md R171, R172) -/

/-- The cells (index, byte) of a list written one after the other, each index reduced modulo the size. -/
def Memory.writeCells (size : Nat) (m : Memory) : List Host.Cell → Memory
  | [] => m
  | (i, b) :: rest => Memory.writeCells size (m.writeByte (i % size) b) rest

/-- A program laid out from instruction number `k` on: instruction `k` at bytes `2k` (high) and `2k + 1` (R172, step 1). -/
def Memory.writeProgram (size : Nat) (m : Memory) (k : Nat) : List Word → Memory
  | [] => m
  | w :: rest => Memory.writeProgram size (m.writeWord size (norm16 (2 * k)) w) (k + 1) rest

/-- The state the host sets up before the first rising edge (R172): the reset state with the program placed in the
instruction memory and the presets the program relies on. Words beyond the sixteenth are not placed. -/
def State.launch (init : Init) : State :=
  { State.reset with
    regs := init.regs
    pc := init.pc
    imem := Memory.writeProgram Config.imemBytes [] 0 (init.program.take 16)
    dmem := Memory.writeCells Config.dmemBytes [] init.data }

end Sys2Proof.Machine
end

