-- ==== Sys2Proof/Machine/Operands.lean ====
section
/-! DEFINITION. The operand forms: the immediate and what the immediate path makes of it (spec/30_encoding.md R52 to R54;
40_blocks.md R93, R96), and the one addressing mode (43_load_store.md R127). -/

namespace Sys2Proof.Machine

/-- `imm16 = sext_16(instr[3:0])`: bit 3 copied into bits 15 to 4 (R52, R93). -/
def imm16 (imm4 : Imm4) : Word := imm4.signExtend 16

/-- `offset16 = (imm16 << 1)[15:0]` (R53). -/
def offset16 (imm4 : Imm4) : Word := imm16 imm4 <<< 1

/-- `branch_target = norm16(pc + 2 + offset16)` (R53, R96). -/
def branchTarget (pc : Word) (imm4 : Imm4) : Word := pcPlus2 pc + offset16 imm4

/-- The jump target under each reading of the source's formula (R54; 92_eei_decisions.md D10). -/
def jumpTargetOf (form : Config.JumpForm) (pc : Word) (field : BitVec 12) : Word :=
  match form with
  | .shiftInField => pc.extractLsb' 12 4 ++ field.extractLsb' 0 11 ++ 0#1
  | .keepField => pc.extractLsb' 13 3 ++ field ++ 0#1
  | .lowBits => pc.extractLsb' 12 3 ++ field ++ 0#1

/-- `jump_target`, from the pc of the JUMP itself (R54, R96). -/
def jumpTarget (pc : Word) (field : BitVec 12) : Word := jumpTargetOf Config.jumpForm pc field

/-- `ea = norm16(x[rs] + sext_16(imm4))`: base plus displacement in bytes, not scaled, the base unchanged (R127). -/
def effectiveAddress (base : Word) (imm4 : Imm4) : Word := base + imm16 imm4

end Sys2Proof.Machine
end

