-- ==== Sys2Proof/Machine/ControlTransfer.lean ====
section
/-! DEFINITION. The branch and the jump (spec/44_control_transfer.md): no delay slot, no link register, no target checked (R137). -/

namespace Sys2Proof.Machine

open Host (Outcome)

/-- BEQ: the ALU subtracts, and a zero result takes the branch (R135; the comparison rests on D5 as far as it is a
subtraction, log 4). -/
def execBeq (rs rt : RegNum) (imm4 : Imm4) (s : State) : Outcome State Fault Refusal :=
  if zeroSignal (aluSub (s.readReg rs) (s.readReg rt)) then .next (s.setPc (branchTarget s.pc imm4))
  else .next s.advance

/-- JUMP (R136; D10, log 5). -/
def execJump (field : BitVec 12) (s : State) : Outcome State Fault Refusal :=
  .next (s.setPc (jumpTarget s.pc field))

end Sys2Proof.Machine
end

