-- ==== Sys2Proof/Machine/Immediate.lean ====
section
/-! DEFINITION. The immediate instruction ADDI (spec/42_immediate.md). -/

namespace Sys2Proof.Machine

open Host (Outcome)

/-- ADDI: `x[rt] <- norm16(x[rs] + imm16)`; the destination is `rt` (R120). -/
def execAddi (rt rs : RegNum) (imm4 : Imm4) (s : State) : Outcome State Fault Refusal :=
  .next ((s.writeReg rt (aluAdd (s.readReg rs) (imm16 imm4))).advance)

end Sys2Proof.Machine
end

