-- ==== Sys2Proof/Machine/LoadStore.lean ====
section
/-! DEFINITION. The load and the store (spec/43_load_store.md). No address faults, none need be even (20_memory.md R31, R35). -/

namespace Sys2Proof.Machine

open Host (Outcome)

/-- The address an LW or SW presents to the data memory (R127). -/
def dataAddress (rs : RegNum) (imm4 : Imm4) (s : State) : Word := effectiveAddress (s.readReg rs) imm4

/-- LW: `x[rt] <- MemRead(ea, 2)` (R125). -/
def execLw (rt rs : RegNum) (imm4 : Imm4) (s : State) : Outcome State Fault Refusal :=
  .next ((s.writeReg rt (s.loadWord (dataAddress rs imm4 s))).advance)

/-- SW: `MemWrite(ea, 2, x[rt])` (R126). -/
def execSw (rt rs : RegNum) (imm4 : Imm4) (s : State) : Outcome State Fault Refusal :=
  .next ((s.storeWord (dataAddress rs imm4 s) (s.readReg rt)).advance)

end Sys2Proof.Machine
end

