-- ==== Sys2Proof/Machine/RegisterAlu.lean ====
section
/-! DEFINITION. The register-register instructions ADD, SUB, AND, OR, SLT (spec/41_alu_register.md). Both sources are read
before the destination is written, so any of the three may name the same register (10_state.md R15). -/

namespace Sys2Proof.Machine

open Host (Outcome)

/-- What the five have in common: `x[rd] <- f(x[rs], x[rt])`, `pc <- norm16(pc + 2)`. -/
def registerOp (f : Word → Word → Word) (rd rs rt : RegNum) (s : State) : Outcome State Fault Refusal :=
  .next ((s.writeReg rd (f (s.readReg rs) (s.readReg rt))).advance)

/-- ADD (R110). -/
def execAdd (rd rs rt : RegNum) (s : State) : Outcome State Fault Refusal := registerOp aluAdd rd rs rt s

/-- SUB (R111; D5, log 4). -/
def execSub (rd rs rt : RegNum) (s : State) : Outcome State Fault Refusal := registerOp aluSub rd rs rt s

/-- AND (R112). -/
def execAnd (rd rs rt : RegNum) (s : State) : Outcome State Fault Refusal := registerOp aluAnd rd rs rt s

/-- OR (R113). -/
def execOr (rd rs rt : RegNum) (s : State) : Outcome State Fault Refusal := registerOp aluOr rd rs rt s

/-- SLT, unsigned (R114). -/
def execSlt (rd rs rt : RegNum) (s : State) : Outcome State Fault Refusal := registerOp aluSlt rd rs rt s

end Sys2Proof.Machine
end

