-- ==== Sys2Proof/Machine/Reserved.lean ====
section
/-! DEFINITION. The reserved opcodes 1010 to 1111 (spec/45_reserved_opcodes.md): they execute as no-operations, whatever
the low twelve bits hold, and raise nothing (R145; 30_encoding.md R56). -/

namespace Sys2Proof.Machine

open Host (Outcome)

/-- RSVD_101x: `pc <- norm16(pc + 2)` and nothing else (R145). -/
def execRsvd101x (_opcode : BitVec 4) (_ignored : BitVec 12) (s : State) : Outcome State Fault Refusal :=
  .next s.advance

/-- RSVD_11xx: `pc <- norm16(pc + 2)` and nothing else (R145). -/
def execRsvd11xx (_opcode : BitVec 4) (_ignored : BitVec 12) (s : State) : Outcome State Fault Refusal :=
  .next s.advance

end Sys2Proof.Machine
end

