-- ==== Sys2Proof/Machine/Dispatch.lean ====
section
/-! DEFINITION. One arm per instruction: what its rising edge does to the registers, the program counter and the data
memory. The clock trackers are `step`'s. -/

namespace Sys2Proof.Machine

def exec (i : Instr) (s : State) : Host.Outcome State Fault Refusal :=
  match i with
  | .add rd rs rt => Sys2Proof.Machine.execAdd rd rs rt s
  | .sub rd rs rt => Sys2Proof.Machine.execSub rd rs rt s
  | .and rd rs rt => Sys2Proof.Machine.execAnd rd rs rt s
  | .or rd rs rt => Sys2Proof.Machine.execOr rd rs rt s
  | .slt rd rs rt => Sys2Proof.Machine.execSlt rd rs rt s
  | .addi rt rs imm4 => Sys2Proof.Machine.execAddi rt rs imm4 s
  | .lw rt rs imm4 => Sys2Proof.Machine.execLw rt rs imm4 s
  | .sw rt rs imm4 => Sys2Proof.Machine.execSw rt rs imm4 s
  | .beq rs rt imm4 => Sys2Proof.Machine.execBeq rs rt imm4 s
  | .jump field => Sys2Proof.Machine.execJump field s
  | .rsvd101x opcode ignored => Sys2Proof.Machine.execRsvd101x opcode ignored s
  | .rsvd11xx opcode ignored => Sys2Proof.Machine.execRsvd11xx opcode ignored s

end Sys2Proof.Machine
end

