-- ==== Sys2Proof/Machine/Step.lean ====
section
/-! DEFINITION. One step of the machine: one clock period, in which one instruction executes completely and commits at the
rising edge (spec/70_reset_and_hazards.md R183; 40_blocks.md R98; log 3). Machine/Clock.lean says the same of single clock
levels, element by element. -/

namespace Sys2Proof.Machine

/-- The instruction of this cycle: the one at the program counter (40_blocks.md R86; 30_encoding.md R59). -/
def State.fetchInstr (s : State) : Instr := decodeWord s.fetchWord

/-- One clock period: the low half-cycle, then the rising edge at which the fetched instruction's effects and the new
program counter are stored together, each computed from the state before the edge (R98, R180). -/
def step (s : State) : Host.Outcome State Fault Refusal :=
  match exec s.fetchInstr s with
  | .next t => .next t.tickClocks
  | .fault f => .fault f
  | .refused r => .refused r

/-- The state after `k` rising edges, the length of a run being the host's to choose (`RUN_EDGES`; R175, R183). The machine
has no halt: nothing but the count ends a run (60_exceptions.md R158). -/
def runEdges : Nat → State → Host.Outcome State Fault Refusal
  | 0, s => .next s
  | k + 1, s =>
    match step s with
    | .next t => runEdges k t
    | .fault f => .fault f
    | .refused r => .refused r

/-- The state with a table word stored where the next step fetches: in the instruction memory at the program counter, high
byte first (20_memory.md R34). This stands for the host's placing of a program (R172; log 10). -/
def State.withFetchWord (s : State) (nbits w : Nat) : State :=
  { s with imem := s.imem.writeWord Config.imemBytes s.pc (tableWord nbits w) }

end Sys2Proof.Machine
end

