-- ==== Sys2Proof/Machine/Datapath.lean ====
section
/-! DEFINITION. The core as blocks and nets: the control decoder, the multiplexers, the next-pc logic, the signals of one
cycle, and the function of one cycle (spec/40_blocks.md R80 to R98). It is written from those rules and not from the
instruction rules of 41 to 45; that the two agree is a statement to be proved. -/

namespace Sys2Proof.Machine

open Host (Outcome)

/-! ## Control decoder (R80 to R83) -/

/-- "the bundle of decode-derived flags/selectors governing one instruction's datapath routing" (00_scope.md R9). -/
structure ControlWord where
  regDst : Bool
  aluSrc : Bool
  memToReg : Bool
  regWrite : Bool
  memWrite : Bool
  branch : Bool
  aluOp : BitVec 3
  jump : Bool
deriving DecidableEq, Repr

/-- The word with every flag false and `alu_op = 000`: the default word (R83; DESIGN CHOICE of the spec, D9, log 7). -/
def ControlWord.noOp : ControlWord := ⟨false, false, false, false, false, false, 0b000#3, false⟩

/-- The word of ADD, SUB, AND, OR and SLT but for `alu_op` (R81). -/
def ControlWord.register (op : BitVec 3) : ControlWord := ⟨true, false, false, true, false, false, op, false⟩

/-- The control table (R81); don't-care entries are 0 (R82; DESIGN CHOICE of the spec, D8, log 7). -/
def controlTable (opcode : BitVec 4) : ControlWord :=
  match opcode with
  | 0b0000#4 => .register 0b000#3
  | 0b0001#4 => .register 0b001#3
  | 0b0010#4 => .register 0b010#3
  | 0b0011#4 => .register 0b011#3
  | 0b0100#4 => .register 0b100#3
  | 0b0101#4 => ⟨false, true, false, true, false, false, 0b000#3, false⟩
  | 0b0110#4 => ⟨false, true, true, true, false, false, 0b000#3, false⟩
  | 0b0111#4 => ⟨false, true, false, false, true, false, 0b000#3, false⟩
  | 0b1000#4 => ⟨false, false, false, false, false, true, 0b001#3, false⟩
  | 0b1001#4 => ⟨false, false, false, false, false, false, 0b000#3, true⟩
  | _ => .noOp

/-! ## Multiplexers and next-pc logic -/

/-- Destination-register multiplexer (R92). -/
def dstMux (regDst : Bool) (rt rd : RegNum) : RegNum := if regDst then rd else rt

/-- ALU-source multiplexer (R94). -/
def aluSrcMux (aluSrc : Bool) (read2 imm : Word) : Word := if aluSrc then imm else read2

/-- Write-back multiplexer (R95). -/
def writeBackMux (memToReg : Bool) (aluResult memRdata : Word) : Word := if memToReg then memRdata else aluResult

/-- Next-pc logic (R89; jump before branch: DESIGN CHOICE of the spec, D11, log 8). The self-incrementing variant has
`branch` and `jump` tied to 0 (R90). -/
def nextPcLogic (variant : Config.PcVariant) (branch jump zero : Bool) (plus2 branchT jumpT : Word) : Word :=
  match variant with
  | .external => if jump then jumpT else if branch && zero then branchT else plus2
  | .selfIncrementing => plus2

/-! ## Signals of one cycle (00_scope.md R9; R97, R98) -/

/-- Every net of the datapath that crosses a block boundary, as settled in one cycle. -/
structure Signals where
  instr : Word
  opcode : BitVec 4
  rs : RegNum
  rt : RegNum
  rd : RegNum
  control : ControlWord
  read1 : Word
  read2 : Word
  imm16 : Word
  aluB : Word
  aluResult : Word
  zero : Bool
  memRdata : Word
  wbData : Word
  dst : RegNum
  pcPlus2 : Word
  branchTarget : Word
  jumpTarget : Word
  nextPc : Word
deriving DecidableEq, Repr

/-- The signals once the ALU has its result: everything else is total. -/
def settleWith (s : State) (instr : Word) (control : ControlWord) (read1 read2 imm aluB aluResult : Word) : Signals :=
  let zero := zeroSignal aluResult
  let memRdata := s.loadWord aluResult
  let branchT := branchTarget s.pc (rdField instr)
  let jumpT := jumpTarget s.pc (field12 instr)
  { instr := instr
    opcode := opcodeField instr
    rs := rsField instr
    rt := rtField instr
    rd := rdField instr
    control := control
    read1 := read1
    read2 := read2
    imm16 := imm
    aluB := aluB
    aluResult := aluResult
    zero := zero
    memRdata := memRdata
    wbData := writeBackMux control.memToReg aluResult memRdata
    dst := dstMux control.regDst (rtField instr) (rdField instr)
    pcPlus2 := pcPlus2 s.pc
    branchTarget := branchT
    jumpTarget := jumpT
    nextPc := nextPcLogic Config.pcVariant control.branch control.jump zero (pcPlus2 s.pc) branchT jumpT }

/-- The combinational signals of a cycle, functions of the state alone (R98 above `at the rising edge`; R28, R99). An ALU
code without a result is the model's failure `unreachable` (R79, log 13). -/
def settle (s : State) : Except Fault Signals :=
  let instr := s.fetchWord
  let control := controlTable (opcodeField instr)
  let read1 := s.readReg (rsField instr)
  let read2 := s.readReg (rtField instr)
  let imm := imm16 (rdField instr)
  let aluB := aluSrcMux control.aluSrc read2 imm
  match alu read1 aluB control.aluOp with
  | some aluResult => .ok (settleWith s instr control read1 read2 imm aluB aluResult)
  | none => .error (.unreachable control.aluOp)

/-! ## The function of one cycle (R98) -/

/-- The three updates of the rising edge, together, each from the signals settled before the edge. -/
def edgeUpdate (s : State) (g : Signals) : State :=
  { s with
    regs := if g.control.regWrite then (s.writeReg g.dst g.wbData).regs else s.regs
    dmem := if g.control.memWrite then s.dmem.writeWord Config.dmemBytes g.aluResult g.read2 else s.dmem
    pc := g.nextPc }

/-- The state after a rising edge as a function of the state before it (R98). The clock trackers are left as they are. -/
def cycle (s : State) : Outcome State Fault Refusal :=
  match settle s with
  | .ok g => .next (edgeUpdate s g)
  | .error f => .fault f

end Sys2Proof.Machine
end

