-- ==== Sys2Proof/Machine/Clock.lean ====
section
/-! DEFINITION. The core under single clock levels, element by element: each of the 81 sequential elements runs its own
edge detection and its own write condition (spec/40_blocks.md R70 to R72; 10_state.md R14, R17, R25; 20_memory.md R33).
`step` is a low level and then a high one; that the two agree is a statement to be proved. -/

namespace Sys2Proof.Machine

open Host (Outcome)

/-! ## One element of each kind -/

/-- A register's new value: `wb_data` when its own tracker fires, the write enable is set and its index is the write
address; else its old value (10_state.md R14). -/
def latchReg (fires : Bool) (g : Signals) (i : Nat) (old : Word) : Word :=
  if fires && (g.control.regWrite && g.dst.toNat == i) then g.wbData else old

/-- A memory unit after a level, cells 0 to `n - 1` done: each cell whose own tracker fires and whose index is the address
or the next one takes its byte, when the write enable is set (20_memory.md R33, R85). -/
def Memory.latchCells (size : Nat) (fires : Nat → Bool) (wen : Bool) (addr wdata : Word) (m : Memory) : Nat → Memory
  | 0 => m
  | n + 1 =>
    let done := Memory.latchCells size fires wen addr wdata m n
    if fires n && wen then
      if n = cellIndex size addr then done.writeByte n (hiByte wdata)
      else if n = nextCellIndex size addr then done.writeByte n (loByte wdata)
      else done
    else done

/-! ## The whole core -/

/-- Whether the tracker of cell `i` fires; no tracker stands outside the unit. -/
def cellFires {size : Nat} (ts : Vector Tracker size) (level : Bool) (i : Nat) : Bool :=
  if h : i < size then (ts[i]).fires level else false

/-- Every element's response to a clock level, all from the signals settled before it (R72, R180). The instruction memory's
write enable is constant 0 and its write data unconnected (R86; 20_memory.md R44; DESIGN CHOICE of the spec, D13, log 10). -/
def latch (level : Bool) (s : State) (g : Signals) : State :=
  { regs := Vector.ofFn fun i => latchReg ((s.clocks.regs.get i).fires level) g i.val (s.regs.get i)
    pc := if s.clocks.pc.fires level then g.nextPc else s.pc
    imem := s.imem.latchCells Config.imemBytes (cellFires s.clocks.imem level) false s.pc 0 Config.imemBytes
    dmem := s.dmem.latchCells Config.dmemBytes (cellFires s.clocks.dmem level) g.control.memWrite g.aluResult g.read2
      Config.dmemBytes
    clocks := s.clocks.onClock level }

/-- The core after the host presents one clock level with the logic settled (R70, R71, R180). -/
def clockLevel (level : Bool) (s : State) : Outcome State Fault Refusal :=
  match settle s with
  | .ok g => .next (latch level s g)
  | .error f => .fault f

/-- The core after a sequence of clock levels (R70; 70_reset_and_hazards.md R184). -/
def clockLevels (levels : List Bool) (s : State) : Outcome State Fault Refusal :=
  match levels with
  | [] => .next s
  | level :: rest =>
    match clockLevel level s with
    | .next t => clockLevels rest t
    | .fault f => .fault f
    | .refused r => .refused r

/-- The number of 0-to-1 transitions in a sequence of levels, the level before it given (R70, R184). -/
def risingEdges (current : Bool) (levels : List Bool) : Nat :=
  match levels with
  | [] => 0
  | level :: rest => (if level && !current then 1 else 0) + risingEdges level rest

end Sys2Proof.Machine
end

