-- ==== Sys2Proof/Safety.lean ====
section
/-! DEFINITION. The terms statements use: what an update leaves unchanged, and the invariants of a sound state. -/

namespace Sys2Proof.Machine

/-! ## Frames -/

/-- The byte of data cell `i` (`DMEM[i]`, spec/10_state.md R24). -/
def State.dataByte (s : State) (i : Nat) : Byte := s.dmem.readByte i

/-- The byte of instruction cell `i` (`IMEM[i]`, R23). -/
def State.instrByte (s : State) (i : Nat) : Byte := s.imem.readByte i

/-- Every register but `r` is as before. -/
def SameRegsBut (r : RegNum) (s t : State) : Prop := ∀ q : RegNum, q ≠ r → t.readReg q = s.readReg q

/-- Every register is as before. -/
def SameRegs (s t : State) : Prop := ∀ q : RegNum, t.readReg q = s.readReg q

/-- Every data cell is as before. -/
def SameData (s t : State) : Prop := ∀ i : Nat, t.dataByte i = s.dataByte i

/-- Every data cell but the two of the word at `addr` is as before. -/
def SameDataBut (addr : Word) (s t : State) : Prop :=
  ∀ i : Nat, i ≠ cellIndex Config.dmemBytes addr → i ≠ nextCellIndex Config.dmemBytes addr → t.dataByte i = s.dataByte i

/-- Every instruction cell is as before. -/
def SameInstrMem (s t : State) : Prop := ∀ i : Nat, t.instrByte i = s.instrByte i

/-- The instruction memory and the clock trackers are as before: no instruction writes either (R23, R25). -/
def SameRest (s t : State) : Prop := SameInstrMem s t ∧ t.clocks = s.clocks

/-- The program counter is `norm16(pc + 2)` of the one before (R17). -/
def PcAdvances (s t : State) : Prop := t.pc.toNat = (s.pc.toNat + 2) % 65536

/-! ## Invariants -/

/-- Both memories are in their canonical form: equal contents are equal data. -/
abbrev State.MemoriesCanonical (s : State) : Prop :=
  s.imem.wf Config.imemBytes = true ∧ s.dmem.wf Config.dmemBytes = true

/-- The program counter is even (R18: preserved, not required). -/
abbrev State.PcEven (s : State) : Prop := s.pc.toNat % 2 = 0

/-- All 81 trackers hold the same pair, `t` (40_blocks.md R72). -/
abbrev State.LockStep (t : Tracker) (s : State) : Prop := s.clocks = Trackers.all t

/-- The parts a program can see or affect are those of `t`; the clock trackers may differ (R25). -/
def State.SameArchitecture (s t : State) : Prop :=
  s.regs = t.regs ∧ s.pc = t.pc ∧ s.imem = t.imem ∧ s.dmem = t.dmem

/-- The two states are equal but for `pc[15:5]` (R18). -/
def State.SameButHighPc (s t : State) : Prop :=
  s.regs = t.regs ∧ s.pc.toNat % 32 = t.pc.toNat % 32 ∧ s.imem = t.imem ∧ s.dmem = t.dmem ∧ s.clocks = t.clocks

end Sys2Proof.Machine
end

