-- ==== Sys2Proof/Certificates/Slice0/Obligations.lean ====
section
/-! DEFINITION. The statements for the provers, from the numbered rules of spec/. Each docstring names its rule; where a
statement rests on a decision the spec marks as its own, the docstring names the decision and the log entry. -/

open Sys2Proof Sys2Proof.Machine

/-! ## Encoding -/

/-- Decoding the bytes of a well-formed instruction, whatever bytes follow, gives the instruction and those bytes
(30_encoding.md R50, R55, R59). -/
def Obligations.DecodeOfEncodeReturnsInstruction : Prop :=
  ∀ (i : Instr) (rest : List Byte), i.wellFormed = true → decodeBytes (encodeBytes i ++ rest) = .ok (i, rest)

/-- Every one of the 65,536 words decodes to a well-formed instruction that encodes back to that word: no bit of a word is
dropped (R56, R57). -/
def Obligations.EncodeOfDecodeReturnsWord : Prop :=
  ∀ w : Word, (decodeWord w).wellFormed = true ∧ encode (decodeWord w) = w

/-- The twelve rows of masks and patterns are disjoint and cover all words, and the one row a word matches is the row of the
instruction it decodes to (R55). -/
def Obligations.OpcodeRowsPartitionWords : Prop :=
  ∀ w : Word, ∃ r ∈ opcodeTable, r.matchesWord w = true ∧ r.mnemonic = (decodeWord w).mnemonic ∧
    ∀ q ∈ opcodeTable, q.matchesWord w = true → q = r

/-- Words the spec writes out decode to the instructions it gives for them (95_test_vectors.md; one or more per family). -/
def Obligations.SpecExampleWordsDecode : Prop :=
  decodeWord 0x0123 = .add 3 1 2 ∧ decodeWord 0x1324 = .sub 4 3 2 ∧ decodeWord 0x2216 = .and 6 2 1 ∧
  decodeWord 0x3217 = .or 7 2 1 ∧ decodeWord 0x4215 = .slt 5 2 1 ∧ decodeWord 0x512D = .addi 2 1 0b1101 ∧
  decodeWord 0x6BC0 = .lw 12 11 0 ∧ decodeWord 0x712F = .sw 2 1 0b1111 ∧ decodeWord 0x8123 = .beq 1 2 3 ∧
  decodeWord 0x9802 = .jump 0x802 ∧ decodeWord 0xA123 = .rsvd101x 0b1010 0x123 ∧ decodeWord 0xF00F = .rsvd11xx 0b1111 0x00F

/-- The assembly form of a well-formed instruction stands for that instruction (R60; the forms of BEQ and JUMP, negative
immediates and `.word` are the spec's decision D16, log 18). -/
def Obligations.AssemblyFormStandsForInstruction : Prop :=
  ∀ i : Instr, i.wellFormed = true → assemble (assembly i) = some i

/-! ## The step -/

/-- A step runs the instruction that the two bytes at the program counter decode to: it is `exec` of that instruction, which
answers a next state and leaves the clock trackers alone, and around it only the trackers move, each over a low and a high
level to (1, 0) (R59, R86, R98, R183; that a step is one clock period is log 3). -/
def Obligations.StepRunsDecodedInstruction : Prop :=
  ∀ (s : State) (i : Instr), i.wellFormed = true →
    decodeBytes [s.instrByte (s.pc.toNat % 32), s.instrByte ((s.pc.toNat + 1) % 32)] = .ok (i, []) →
      ∃ t, exec i s = .next t ∧ t.clocks = s.clocks ∧
        step s = .next { t with clocks := Trackers.all ⟨true, false⟩ }

/-- Every instruction word, in every state, executes to completion: placed at the program counter, the next step runs the
instruction it decodes to and answers a next state; so do a step and a cycle of any state (R150). -/
def Obligations.EveryWordInEveryStateCompletes : Prop :=
  ∀ (s : State), (∃ t, step s = .next t) ∧ (∃ t, cycle s = .next t) ∧
    ∀ w : Word, ∃ t, exec (decodeWord w) (s.withFetchWord 16 w.toNat) = .next t ∧
      step (s.withFetchWord 16 w.toNat) = .next t.tickClocks

/-! ## The instructions: completion, result and frame -/

/-- ADD: encoding, ALU code, completion, the sum modulo 2^16 in `x[rd]`, of the unsigned values as of the signed ones, nothing
else but the program counter (R110). -/
def Obligations.AddWritesSumModulo : Prop :=
  ∀ (rd rs rt : RegNum) (s : State),
    decodeWord (0b0000#4 ++ rs ++ rt ++ rd) = .add rd rs rt ∧
    assembly (.add rd rs rt) = .op "ADD" [.reg rd.toNat, .reg rs.toNat, .reg rt.toNat] ∧
    (controlTable 0b0000#4).aluOp = 0b000#3 ∧
    ∃ t, exec (.add rd rs rt) s = .next t ∧
      (t.readReg rd).toNat = ((s.readReg rs).toNat + (s.readReg rt).toNat) % 65536 ∧
      t.readReg rd = BitVec.ofInt 16 ((s.readReg rs).toInt + (s.readReg rt).toInt) ∧
      SameRegsBut rd s t ∧ PcAdvances s t ∧ SameData s t ∧ SameRest s t

/-- SUB: as ADD, with the plain difference when `x[rs] >= x[rt]` and the difference plus 65536 otherwise. The second case
is the spec's decision D5, not the source's (R111; log 4). -/
def Obligations.SubWritesWrappedDifference : Prop :=
  ∀ (rd rs rt : RegNum) (s : State),
    decodeWord (0b0001#4 ++ rs ++ rt ++ rd) = .sub rd rs rt ∧
    ∃ t, exec (.sub rd rs rt) s = .next t ∧
      (if (s.readReg rt).toNat ≤ (s.readReg rs).toNat
        then (t.readReg rd).toNat = (s.readReg rs).toNat - (s.readReg rt).toNat
        else (t.readReg rd).toNat = (s.readReg rs).toNat + 65536 - (s.readReg rt).toNat) ∧
      SameRegsBut rd s t ∧ PcAdvances s t ∧ SameData s t ∧ SameRest s t

/-- AND: bit `i` of `x[rd]` is the conjunction of the sources' bits `i` (R112). -/
def Obligations.AndWritesBitwiseConjunction : Prop :=
  ∀ (rd rs rt : RegNum) (s : State),
    decodeWord (0b0010#4 ++ rs ++ rt ++ rd) = .and rd rs rt ∧
    assembly (.and rd rs rt) = .op "AND" [.reg rd.toNat, .reg rs.toNat, .reg rt.toNat] ∧
    (controlTable 0b0010#4).aluOp = 0b010#3 ∧
    ∃ t, exec (.and rd rs rt) s = .next t ∧
      (∀ i < 16, (t.readReg rd).getLsbD i = ((s.readReg rs).getLsbD i && (s.readReg rt).getLsbD i)) ∧
      SameRegsBut rd s t ∧ PcAdvances s t ∧ SameData s t ∧ SameRest s t

/-- OR: bit `i` of `x[rd]` is the disjunction of the sources' bits `i` (R113). -/
def Obligations.OrWritesBitwiseDisjunction : Prop :=
  ∀ (rd rs rt : RegNum) (s : State),
    decodeWord (0b0011#4 ++ rs ++ rt ++ rd) = .or rd rs rt ∧
    assembly (.or rd rs rt) = .op "OR" [.reg rd.toNat, .reg rs.toNat, .reg rt.toNat] ∧
    (controlTable 0b0011#4).aluOp = 0b011#3 ∧
    ∃ t, exec (.or rd rs rt) s = .next t ∧
      (∀ i < 16, (t.readReg rd).getLsbD i = ((s.readReg rs).getLsbD i || (s.readReg rt).getLsbD i)) ∧
      SameRegsBut rd s t ∧ PcAdvances s t ∧ SameData s t ∧ SameRest s t

/-- SLT: 1 when the first source is less than the second as unsigned numbers, else 0 (R114; that the comparison is unsigned is
the spec's choice between two passages, decision D6, log 15). -/
def Obligations.SltWritesUnsignedLessThan : Prop :=
  ∀ (rd rs rt : RegNum) (s : State),
    decodeWord (0b0100#4 ++ rs ++ rt ++ rd) = .slt rd rs rt ∧
    assembly (.slt rd rs rt) = .op "SLT" [.reg rd.toNat, .reg rs.toNat, .reg rt.toNat] ∧
    (controlTable 0b0100#4).aluOp = 0b100#3 ∧
    ∃ t, exec (.slt rd rs rt) s = .next t ∧
      (t.readReg rd).toNat = (if (s.readReg rs).toNat < (s.readReg rt).toNat then 1 else 0) ∧
      SameRegsBut rd s t ∧ PcAdvances s t ∧ SameData s t ∧ SameRest s t

/-- ADDI: `x[rt]` takes `x[rs]` plus the signed immediate, modulo 2^16, with no overflow trap (R120). -/
def Obligations.AddiAddsSignedImmediate : Prop :=
  ∀ (rt rs : RegNum) (imm4 : Imm4) (s : State),
    decodeWord (0b0101#4 ++ rs ++ rt ++ imm4) = .addi rt rs imm4 ∧
    assembly (.addi rt rs imm4) = .op "ADDI" [.reg rt.toNat, .reg rs.toNat, .imm imm4.toInt] ∧
    controlTable 0b0101#4 = { regDst := false, aluSrc := true, memToReg := false, regWrite := true, memWrite := false,
                              branch := false, aluOp := 0b000#3, jump := false } ∧
    ∃ t, exec (.addi rt rs imm4) s = .next t ∧
      ((t.readReg rt).toNat : Int) = ((s.readReg rs).toNat + imm4.toInt) % 65536 ∧
      SameRegsBut rt s t ∧ PcAdvances s t ∧ SameData s t ∧ SameRest s t

/-- LW: `x[rt]` takes the two data cells at the effective address modulo 32, the first in the high byte, at every address,
odd or out of range, with the cell after 31 being 0 (R125). -/
def Obligations.LwLoadsBigEndianWord : Prop :=
  ∀ (rt rs : RegNum) (imm4 : Imm4) (s : State),
    decodeWord (0b0110#4 ++ rs ++ rt ++ imm4) = .lw rt rs imm4 ∧
    assembly (.lw rt rs imm4) = .op "LW" [.reg rt.toNat, .mem imm4.toInt rs.toNat] ∧
    controlTable 0b0110#4 = { regDst := false, aluSrc := true, memToReg := true, regWrite := true, memWrite := false,
                              branch := false, aluOp := 0b000#3, jump := false } ∧
    ∃ ea : Nat, (ea : Int) = ((s.readReg rs).toNat + imm4.toInt) % 65536 ∧
    ∃ t, exec (.lw rt rs imm4) s = .next t ∧
      t.readReg rt = s.dataByte (ea % 32) ++ s.dataByte ((ea + 1) % 32) ∧
      SameRegsBut rt s t ∧ PcAdvances s t ∧ SameData s t ∧ SameRest s t

/-- SW: the effective address is base plus signed displacement modulo 2^16; the cell it names modulo 32 takes the high byte
of `x[rt]` and the next cell the low byte; no other cell and no register changes (R126, R127). -/
def Obligations.SwStoresBigEndianWord : Prop :=
  ∀ (rt rs : RegNum) (imm4 : Imm4) (s : State),
    decodeWord (0b0111#4 ++ rs ++ rt ++ imm4) = .sw rt rs imm4 ∧
    ((dataAddress rs imm4 s).toNat : Int) = ((s.readReg rs).toNat + imm4.toInt) % 65536 ∧
    ∃ t, exec (.sw rt rs imm4) s = .next t ∧
      t.dataByte ((dataAddress rs imm4 s).toNat % 32) = (s.readReg rt).extractLsb' 8 8 ∧
      t.dataByte (((dataAddress rs imm4 s).toNat + 1) % 32) = (s.readReg rt).extractLsb' 0 8 ∧
      SameDataBut (dataAddress rs imm4 s) s t ∧ SameRegs s t ∧ PcAdvances s t ∧ SameRest s t

/-- BEQ: with equal registers the program counter takes the address after the branch plus twice the signed offset, modulo
2^16; else it advances; no register and no cell changes. That unequal operands never compare equal rests on the spec's
decision D5 for the subtraction (R135; log 4). -/
def Obligations.BeqBranchesWhenEqual : Prop :=
  ∀ (rs rt : RegNum) (imm4 : Imm4) (s : State),
    decodeWord (0b1000#4 ++ rs ++ rt ++ imm4) = .beq rs rt imm4 ∧
    ∃ t, exec (.beq rs rt imm4) s = .next t ∧
      (if s.readReg rs = s.readReg rt then (t.pc.toNat : Int) = (s.pc.toNat + 2 + 2 * imm4.toInt) % 65536
        else PcAdvances s t) ∧
      SameRegs s t ∧ SameData s t ∧ SameRest s t

/-- JUMP: bit 0 of the new program counter is 0, bits 11 to 1 are the field's bits 10 to 0, bits 15 to 12 are those of the
JUMP's own address; no register and no cell changes. Bits 15 to 12 are the spec's decision D10 (R136, R54; log 5). -/
def Obligations.JumpTakesFieldTarget : Prop :=
  ∀ (field : BitVec 12) (s : State),
    decodeWord (0b1001#4 ++ field) = .jump field ∧
    ∃ t, exec (.jump field) s = .next t ∧
      (∀ i < 16, t.pc.getLsbD i =
        (if i = 0 then false else if i < 12 then field.getLsbD (i - 1) else s.pc.getLsbD i)) ∧
      SameRegs s t ∧ SameData s t ∧ SameRest s t

/-- The reserved opcodes: every word with one of the six decodes to one of the two reserved rows, and both rows advance the
program counter and change nothing else, whatever the low twelve bits hold (R145). -/
def Obligations.ReservedOpcodesOnlyAdvance : Prop :=
  (∀ (opcode : BitVec 4) (ignored : BitVec 12), 10 ≤ opcode.toNat →
    decodeWord (opcode ++ ignored) =
      if opcode.toNat < 12 then .rsvd101x opcode ignored else .rsvd11xx opcode ignored) ∧
  ∀ (opcode : BitVec 4) (ignored : BitVec 12) (s : State),
    (∃ t, exec (.rsvd101x opcode ignored) s = .next t ∧ PcAdvances s t ∧ SameRegs s t ∧ SameData s t ∧ SameRest s t) ∧
    (∃ t, exec (.rsvd11xx opcode ignored) s = .next t ∧ PcAdvances s t ∧ SameRegs s t ∧ SameData s t ∧ SameRest s t)

/-! ## The ALU and the control decoder -/

/-- ALU code 000: the sum of the unsigned values modulo 2^16 (R74), which are also the bits of the signed sum modulo 2^16, an
inference of the spec's own ("The same bits are the two's-complement sum"). -/
def Obligations.AluAddIsSumModulo : Prop :=
  ∀ a b : Word, ∃ r, alu a b 0b000#3 = some r ∧ r.toNat = (a.toNat + b.toNat) % 65536 ∧
    r = BitVec.ofInt 16 (a.toInt + b.toInt)

/-- ALU codes 010 and 011 act on each bit by itself (R76, R77). -/
def Obligations.AluAndOrActOnEachBit : Prop :=
  ∀ a b : Word, (∃ r, alu a b 0b010#3 = some r ∧ ∀ i < 16, r.getLsbD i = (a.getLsbD i && b.getLsbD i)) ∧
    (∃ r, alu a b 0b011#3 = some r ∧ ∀ i < 16, r.getLsbD i = (a.getLsbD i || b.getLsbD i))

/-- ALU code 100: 1 when `a < b` unsigned, else 0 (R78; unsigned by decision D6, log 15); `zero` exactly when `a >= b`, an
inference of the spec's own. -/
def Obligations.AluSltComparesUnsigned : Prop :=
  ∀ a b : Word, ∃ r, alu a b 0b100#3 = some r ∧ r.toNat = (if a.toNat < b.toNat then 1 else 0) ∧
    (zeroSignal r = true ↔ b.toNat ≤ a.toNat)

/-- ALU code 001: the plain difference when `a >= b`, plus 65536 when `a < b`, which is the spec's decision D5; so `zero` is
equality (R75; log 4). -/
def Obligations.AluSubWrapsAndTestsEquality : Prop :=
  ∀ a b : Word, ∃ r, alu a b 0b001#3 = some r ∧
    (if b.toNat ≤ a.toNat then r.toNat = a.toNat - b.toNat else r.toNat = a.toNat + 65536 - b.toNat) ∧
    (zeroSignal r = true ↔ a = b)

/-- The three ALU codes without a result are never met: the control table emits none of them, and every state settles. The
classification as a failure of the model is the spec's decision D18 (R79, R157; log 13). -/
def Obligations.UndefinedAluCodesAreUnreachable : Prop :=
  (∀ (a b : Word) (op : BitVec 3), alu a b op = none ↔ 5 ≤ op.toNat) ∧
  (∀ opcode : BitVec 4, (controlTable opcode).aluOp.toNat ≤ 4) ∧
  (∀ s : State, ∃ g, settle s = .ok g)

/-- For any opcode not in the table every writable flag is false; and no control word sets both `branch` and `jump`. The
other fields of the default word are the spec's decision D9, and nothing is said of them here (R83, R89; log 7). -/
def Obligations.DefaultControlWordWritesNothing : Prop :=
  ∀ opcode : BitVec 4, ((controlTable opcode).branch && (controlTable opcode).jump) = false ∧
    (10 ≤ opcode.toNat → (controlTable opcode).regWrite = false ∧ (controlTable opcode).memWrite = false ∧
      (controlTable opcode).branch = false ∧ (controlTable opcode).jump = false)

/-- The three multiplexers, on the signals any state settles to: `dst`, `alu_b` and `wb_data` are the inputs that `reg_dst`,
`alu_src` and `mem_to_reg` select, the ALU result is of `read1` and `alu_b`, and the read values are the stored ones
(R92, R94, R95). -/
def Obligations.MultiplexersSelectByControl : Prop :=
  ∀ s : State, ∃ g, settle s = .ok g ∧
    g.dst = (if g.control.regDst = true then g.rd else g.rt) ∧
    g.aluB = (if g.control.aluSrc = true then g.imm16 else g.read2) ∧
    g.wbData = (if g.control.memToReg = true then g.memRdata else g.aluResult) ∧
    g.read1 = s.readReg g.rs ∧ g.read2 = s.readReg g.rt ∧ g.memRdata = s.loadWord g.aluResult ∧
    alu g.read1 g.aluB g.control.aluOp = some g.aluResult

/-- Next-pc selection on the signals any state settles to: the jump target, else the branch target when `branch` and `zero`,
else `pc + 2`; the priority of the jump is the spec's decision D11 and the variant its decision D12 (R89, R90; logs 8, 9). -/
def Obligations.NextPcFollowsJumpBranchZero : Prop :=
  ∀ s : State, ∃ g, settle s = .ok g ∧
    g.pcPlus2.toNat = (s.pc.toNat + 2) % 65536 ∧ (g.zero = true ↔ g.aluResult = 0) ∧
    (g.control.jump = true → g.nextPc = g.jumpTarget) ∧
    (g.control.jump = false → g.control.branch = true → g.zero = true → g.nextPc = g.branchTarget) ∧
    (g.control.jump = false → (g.control.branch = false ∨ g.zero = false) → g.nextPc = g.pcPlus2)

/-! ## Operand forms -/

/-- The immediate is the 4-bit field sign-extended: its signed value, -8 to 7, with bit 3 in every bit above; ADDI, LW and SW
(opcodes 5, 6, 7) have it as ALU operand b, neither zero-extended nor scaled (R52). -/
def Obligations.ImmediateIsSignExtended : Prop :=
  (∀ k : Imm4, (imm16 k).toInt = k.toInt ∧ -8 ≤ k.toInt ∧ k.toInt ≤ 7 ∧
    ∀ i < 16, (imm16 k).getLsbD i = if i < 4 then k.getLsbD i else k.getLsbD 3) ∧
  ∀ s : State, ∃ g, settle s = .ok g ∧ g.instr = s.fetchWord ∧ g.rd = g.instr.extractLsb' 0 4 ∧
    (5 ≤ g.instr.toNat / 4096 → g.instr.toNat / 4096 ≤ 7 → g.aluB = imm16 g.rd)

/-- The branch offset is twice the signed immediate, -16 to 14 (an inference of the spec's own from R52), and the target is
`pc + 2` plus it modulo 2^16 (R53). -/
def Obligations.BranchTargetCountsFromNextInstruction : Prop :=
  ∀ (pc : Word) (k : Imm4), (offset16 k).toInt = 2 * k.toInt ∧ -16 ≤ (offset16 k).toInt ∧ (offset16 k).toInt ≤ 14 ∧
    ((branchTarget pc k).toNat : Int) = (pc.toNat + 2 + 2 * k.toInt) % 65536

/-- All three readings of the jump formula agree on target bits 11 to 0, the field's bits 10 to 0 and a 0, and so on the
instruction cell fetched next, twice the field's low four bits; the reading used is the first, the spec's decision D10
(R54, R136; log 5). -/
def Obligations.JumpReadingsAgreeOnFetch : Prop :=
  ∀ (form : Config.JumpForm) (pc : Word) (field : BitVec 12),
    (∀ i < 12, (jumpTargetOf form pc field).getLsbD i = (decide (0 < i) && field.getLsbD (i - 1))) ∧
    cellIndex Config.imemBytes (jumpTargetOf form pc field) = 2 * (field.toNat % 16) ∧
    jumpTarget pc field = jumpTargetOf .shiftInField pc field

/-! ## Registers and memory -/

/-- A write to any register, register 0 included, is read back from it, and every other register reads as before (R12, R14;
that register 0 is ordinary is kept as the spec's decision D7, log 16). -/
def Obligations.EveryRegisterIsWritable : Prop :=
  ∀ (s : State) (r q : RegNum) (v : Word),
    (s.writeReg r v).readReg q = (if q = r then v else s.readReg q) ∧
    ∃ t, exec (.addi 0 q 0) s = .next t ∧ t.readReg 0 = s.readReg q

/-- A word read gives the addressed cell in bits 15 to 8 and the next cell in bits 7 to 0, indices modulo 32, in both
memories; in every cycle the instruction memory is read at `pc` and the data memory at the ALU result (R32). -/
def Obligations.WordReadIsTwoCellsHighByteFirst : Prop :=
  ∀ (s : State) (a : Word),
    (s.loadWord a).extractLsb' 8 8 = s.dataByte (a.toNat % 32) ∧
    (s.loadWord a).extractLsb' 0 8 = s.dataByte ((a.toNat + 1) % 32) ∧
    s.fetchWord.extractLsb' 8 8 = s.instrByte (s.pc.toNat % 32) ∧
    s.fetchWord.extractLsb' 0 8 = s.instrByte ((s.pc.toNat + 1) % 32) ∧
    ∃ g, settle s = .ok g ∧ g.instr = s.fetchWord ∧ g.memRdata = s.loadWord g.aluResult

/-- An address names the cell of its value modulo 32, and after it the next one modulo 32; addresses equal modulo 32 read and
write the same cells, for loads, stores and fetches; and no address stops LW, SW or a step (R31). -/
def Obligations.AddressesAliasModuloSize : Prop :=
  (∀ a : Word, cellIndex 32 a = a.toNat % 32 ∧ nextCellIndex 32 a = (a.toNat + 1) % 32) ∧
  (∀ (s : State) (a b v : Word), a.toNat % 32 = b.toNat % 32 →
    s.loadWord a = s.loadWord b ∧ s.storeWord a v = s.storeWord b v ∧ (s.setPc a).fetchWord = (s.setPc b).fetchWord) ∧
  ∀ (s : State) (a : Word) (rt rs : RegNum) (imm4 : Imm4),
    (∃ t, exec (.lw rt rs imm4) (s.writeReg rs a) = .next t) ∧ (∃ t, exec (.sw rt rs imm4) (s.writeReg rs a) = .next t) ∧
    ∃ t, step (s.setPc a) = .next t

/-- After a word is stored at `a`: a load at `a` gives it back, a load at `a + 1` gives its low byte and the cell after,
a load at `a - 1` gives the cell before and its high byte, at every `a` modulo 32 (R34, R45). -/
def Obligations.StoredWordSeenByOverlappingLoads : Prop :=
  ∀ (s : State) (a v : Word),
    (s.storeWord a v).loadWord a = v ∧
    (s.storeWord a v).loadWord (a + 1) = v.extractLsb' 0 8 ++ s.dataByte ((a.toNat + 2) % 32) ∧
    (s.storeWord a v).loadWord (a - 1) = s.dataByte ((a.toNat + 31) % 32) ++ v.extractLsb' 8 8

/-! ## The clock -/

/-- One tracker: it keeps the new level; it fires exactly on a change from 0 to 1; a repeated level changes nothing and does
not fire; and over the levels 0,0,1,1,0,1 it fires at the 3rd and 6th, whatever it last saw before a low level (R71). -/
def Obligations.TrackerFiresOnRisingEdgeOnly : Prop :=
  (∀ (t : Tracker) (level : Bool),
    (t.onClock level).current = level ∧
    (level ≠ t.current → (t.onClock level).previous = t.current) ∧
    (t.fires level = true ↔ t.current = false ∧ level = true) ∧
    (t.onClock level).onClock level = t.onClock level ∧ (t.onClock level).fires level = false) ∧
  ∀ t : Tracker, t.current = false →
    let t1 := t.onClock false
    let t2 := t1.onClock false
    let t3 := t2.onClock true
    let t4 := t3.onClock true
    let t5 := t4.onClock false
    [t.fires false, t1.fires false, t2.fires true, t3.fires true, t4.fires false, t5.fires true]
      = [false, false, true, false, false, true]

/-- Register write, register by register: after any clock level, with any trackers, register `r` holds `wb_data` exactly when
its own tracker fires, `reg_write` is set and `dst` is `r`; else it holds its old value. The signals are those settled
before the level (R14, R15). -/
def Obligations.RegisterWriteNeedsItsOwnEdge : Prop :=
  ∀ (level : Bool) (s : State), ∃ g t, settle s = .ok g ∧ clockLevel level s = .next t ∧
    g.read1 = s.readReg g.rs ∧ g.read2 = s.readReg g.rt ∧
    ∀ r : RegNum, t.readReg r =
      if (s.clocks.regs.get r.toFin).current = false ∧ level = true ∧ g.control.regWrite = true ∧ g.dst = r
        then g.wbData else s.readReg r

/-- Memory write, cell by cell: after any clock level, with any trackers, data cell `i` takes a byte of `x[rt]` exactly when
its own tracker fires, `mem_write` is set and `i` is the address or the next one modulo 32; the instruction memory never
changes (R33, R87; the tied-off write enable of the instruction memory is the spec's decision D13, log 10). -/
def Obligations.CellWriteNeedsItsOwnEdge : Prop :=
  ∀ (level : Bool) (s : State), ∃ g t, settle s = .ok g ∧ clockLevel level s = .next t ∧
    g.read2 = s.readReg g.rt ∧ t.imem = s.imem ∧
    ∀ i : Fin 32, t.dataByte i.val =
      if (s.clocks.dmem.get i).current = false ∧ level = true ∧ g.control.memWrite = true then
        if i.val = g.aluResult.toNat % 32 then g.read2.extractLsb' 8 8
        else if i.val = (g.aluResult.toNat + 1) % 32 then g.read2.extractLsb' 0 8
        else s.dataByte i.val
      else s.dataByte i.val

/-- The program counter takes `next_pc` at every rising edge of its own tracker, with no enable and no hold (R17, R88). -/
def Obligations.PcLoadsAtEveryRisingEdge : Prop :=
  ∀ (level : Bool) (s : State), ∃ g t, settle s = .ok g ∧ clockLevel level s = .next t ∧
    t.pc = if s.clocks.pc.current = false ∧ level = true then g.nextPc else s.pc

/-- A falling edge or a constant level changes no register, no cell and not the program counter, and the combinational
signals stay those of the state (R182). -/
def Obligations.LevelsWithoutRisingEdgeHoldState : Prop :=
  ∀ (s : State) (tr : Tracker) (level : Bool), s.LockStep tr → ¬ (tr.current = false ∧ level = true) →
    ∃ t, clockLevel level s = .next t ∧ t.SameArchitecture s ∧ t.LockStep (tr.onClock level) ∧ settle t = settle s

/-- Trackers that start in step stay in step, over every sequence of clock levels, and end having seen the last level (R72). -/
def Obligations.TrackersStayInStep : Prop :=
  ∀ (levels : List Bool) (s : State) (tr : Tracker), s.LockStep tr →
    ∃ t, clockLevels levels s = .next t ∧ t.LockStep (levels.foldl Tracker.onClock tr) ∧
      (levels.foldl Tracker.onClock tr).current = (levels.getLast?).getD tr.current

/-! ## Refinement -/

/-- The function of one cycle, computed by the blocks and multiplexers from the control word, is the meaning of the fetched
instruction, in every state (R98 against R110 to R145). -/
def Obligations.CycleIsMeaningOfFetchedInstruction : Prop :=
  ∀ s : State, cycle s = exec (decodeWord s.fetchWord) s

/-- A low level and then a high one, each of the 81 elements deciding for itself, is one step, whatever the trackers held
before (R72, R183; that a step is this period is log 3). -/
def Obligations.LowThenHighLevelIsOneStep : Prop :=
  ∀ s : State, s.MemoriesCanonical → clockLevels [false, true] s = step s

/-- Over any sequence of clock levels, from trackers in step, the number of instructions executed is the number of rising
edges: the state reached is that of so many steps (R183, R184). -/
def Obligations.InstructionsExecutedEqualRisingEdges : Prop :=
  ∀ (levels : List Bool) (s : State) (tr : Tracker), s.MemoriesCanonical → s.LockStep tr →
    ∃ t u, clockLevels levels s = .next t ∧ runEdges (risingEdges tr.current levels) s = .next u ∧ t.SameArchitecture u

/-! ## Invariants and rules of the whole machine -/

/-- Every step keeps both memories in their canonical form (the model's invariant; the cells are those of R30). -/
def Obligations.StepKeepsMemoriesCanonical : Prop :=
  ∀ s t : State, s.MemoriesCanonical → step s = .next t → t.MemoriesCanonical

/-- Every step keeps an even program counter even, an odd one stays odd until a JUMP, and a JUMP makes it even (R18). -/
def Obligations.StepKeepsPcParityUntilJump : Prop :=
  ∀ s t : State, step s = .next t →
    (∀ f, s.fetchInstr = .jump f → t.PcEven) ∧ ((∀ f, s.fetchInstr ≠ .jump f) → (t.PcEven ↔ s.PcEven))

/-- The reset state, and the launch state of any program and data with an even pc, meet the invariants (R26, R171; the reset
values are the spec's decision D3, log 1). -/
def Obligations.LaunchStatesMeetInvariants : Prop :=
  State.reset.MemoriesCanonical ∧ State.reset.PcEven ∧ State.reset.LockStep ⟨false, false⟩ ∧
  ∀ init : Init, (State.launch init).MemoriesCanonical ∧ (State.launch init).LockStep ⟨false, false⟩ ∧
    ((State.launch init).PcEven ↔ init.pc.toNat % 2 = 0)

/-- The instruction memory is constant during a run of any length, whatever the program stores (R23, R42). -/
def Obligations.RunNeverChangesInstructionMemory : Prop :=
  ∀ (k : Nat) (s : State), ∃ t, runEdges k s = .next t ∧ t.imem = s.imem

/-- At most one register changes in a step (R14). -/
def Obligations.StepChangesAtMostOneRegister : Prop :=
  ∀ s t : State, step s = .next t → ∃ r : RegNum, ∀ q : RegNum, q ≠ r → t.readReg q = s.readReg q

/-- Nothing but SW changes the data memory, and it changes only the two cells its address names (R24). -/
def Obligations.OnlySwChangesDataMemory : Prop :=
  ∀ (s t : State) (i : Nat), step s = .next t → t.dataByte i ≠ s.dataByte i →
    ∃ rt rs imm4, s.fetchInstr = .sw rt rs imm4 ∧
      (i = (dataAddress rs imm4 s).toNat % 32 ∨ i = ((dataAddress rs imm4 s).toNat + 1) % 32)

/-- BEQ with equal registers and JUMP are the only instructions that make the program counter take a value other than
`pc + 2` (R17, R137). -/
def Obligations.OnlyTakenBranchOrJumpLeavesSequence : Prop :=
  ∀ s t : State, step s = .next t → t.pc.toNat ≠ (s.pc.toNat + 2) % 65536 →
    (∃ rs rt imm4, s.fetchInstr = .beq rs rt imm4 ∧ s.readReg rs = s.readReg rt) ∨ ∃ f, s.fetchInstr = .jump f

/-- Bits 15 to 5 of the program counter never affect which instruction runs: two states equal but for them stay so over runs
of any length (R18; the target bits 15 to 12 of a JUMP are decision D10, and this holds whatever they are). -/
def Obligations.HighPcBitsNeverAffectRuns : Prop :=
  ∀ (k : Nat) (s t : State), s.SameButHighPc t →
    ∃ s' t', runEdges k s = .next s' ∧ runEdges k t = .next t' ∧ s'.SameButHighPc t'

/-- No program can observe the clock state: runs that differ in it alone agree in every register, cell and program counter
(R25). -/
def Obligations.ClockStateIsUnobservable : Prop :=
  ∀ (k : Nat) (s : State) (c : Trackers),
    ∃ t u, runEdges k s = .next t ∧ runEdges k { s with clocks := c } = .next u ∧ t.SameArchitecture u

/-! ## Reset and launch -/

/-- After reset the program counter, every register and every data cell are 0, no byte of a program is supplied, and every
tracker holds (0, 0): the spec's decisions D3 and D4 (R26, R27; logs 1 and 2). -/
def Obligations.ResetHoldsZerosEverywhere : Prop :=
  State.reset.pc = 0 ∧ (∀ r : RegNum, State.reset.readReg r = 0) ∧ (∀ i : Nat, State.reset.dataByte i = 0) ∧
  (∀ i : Nat, State.reset.instrByte i = 0) ∧ State.reset.LockStep ⟨false, false⟩ ∧ State.launch {} = State.reset

/-- The host's program stands in the launch state with instruction `k` at bytes `2k` (high) and `2k + 1` (low), the cells
after it hold 0, and the presets are in place (R59, R172; unsupplied bytes 0 are the spec's decision D3, logs 1 and 10). -/
def Obligations.LaunchPlacesProgramFromByteZero : Prop :=
  ∀ init : Init, init.program.length ≤ 16 →
    (∀ (k : Nat) (w : Word), init.program[k]? = some w →
      (State.launch init).instrByte (2 * k) = w.extractLsb' 8 8 ∧
      (State.launch init).instrByte (2 * k + 1) = w.extractLsb' 0 8 ∧
      ((State.launch init).setPc (norm16 (2 * k))).fetchInstr = decodeWord w) ∧
    (∀ i : Nat, 2 * init.program.length ≤ i → (State.launch init).instrByte i = 0) ∧
    (State.launch init).pc = init.pc ∧ (State.launch init).regs = init.regs
end

