-- ==== Sys2Proof/Laws/Memory.lean ====
section
/-! SUPPORT. What reading a cell gives after each memory operation, that every memory operation keeps the canonical form,
and that canonical memories with equal contents are equal. -/

namespace Sys2Proof.Machine

/-! ## Reading after an operation -/

@[simp] theorem Memory.readByte_nil (i : Nat) : Memory.readByte [] i = Config.unlistedByte := rfl

theorem Memory.readByte_cons (a : Nat) (b : Byte) (m : Memory) (i : Nat) :
    Memory.readByte ((a, b) :: m) i = if a = i then b else m.readByte i := rfl

theorem Memory.readByte_eraseCell (m : Memory) (i j : Nat) :
    (m.eraseCell i).readByte j = if j = i then Config.unlistedByte else m.readByte j := by
  induction m with
  | nil => simp [Memory.eraseCell]
  | cons c rest ih =>
    obtain ⟨a, b⟩ := c
    by_cases h : a = i
    · subst h
      rw [Memory.eraseCell, if_pos rfl, ih, Memory.readByte_cons]
      by_cases hj : j = a
      · simp [hj]
      · simp [hj, Ne.symm hj]
    · rw [Memory.eraseCell, if_neg h, Memory.readByte_cons, Memory.readByte_cons, ih]
      by_cases ha : a = j
      · subst ha; simp [h]
      · simp [ha]

theorem Memory.readByte_insertCell (m : Memory) (i : Nat) (v : Byte) (j : Nat) :
    ((m.eraseCell i).insertCell i v).readByte j = if j = i then v else m.readByte j := by
  induction m with
  | nil => simp [Memory.eraseCell, Memory.insertCell, Memory.readByte_cons, eq_comm]
  | cons c rest ih =>
    obtain ⟨a, b⟩ := c
    by_cases h : a = i
    · subst h
      rw [Memory.eraseCell, if_pos rfl, ih, Memory.readByte_cons]
      by_cases hj : j = a
      · simp [hj]
      · simp [hj, Ne.symm hj]
    · rw [Memory.eraseCell, if_neg h, Memory.insertCell]
      split
      · simp only [Memory.readByte_cons, Memory.readByte_eraseCell]
        by_cases hj : j = i
        · simp [hj]
        · simp [hj, Ne.symm hj]
      · rw [Memory.readByte_cons, ih, Memory.readByte_cons]
        by_cases ha : a = j
        · subst ha; simp [h]
        · simp [ha]

/-- A written cell reads as what was written, every other cell as before; no premise on the memory's form. -/
theorem Memory.readByte_writeByte (m : Memory) (i : Nat) (v : Byte) (j : Nat) :
    (m.writeByte i v).readByte j = if j = i then v else m.readByte j := by
  unfold Memory.writeByte
  split
  · subst_vars; exact Memory.readByte_eraseCell m i j
  · exact Memory.readByte_insertCell m i v j

/-- What a cell holds after a word write (spec/20_memory.md R33). -/
theorem Memory.readByte_writeWord (size : Nat) (m : Memory) (addr v : Word) (j : Nat) :
    (m.writeWord size addr v).readByte j =
      if j = cellIndex size addr then hiByte v
      else if j = nextCellIndex size addr then loByte v else m.readByte j := by
  simp [Memory.writeWord, Memory.readByte_writeByte]

/-! ## The canonical form is kept -/

theorem Memory.wfFrom_weaken {lo lo' size : Nat} (hle : lo' ≤ lo) :
    ∀ {m : Memory}, m.wfFrom lo size = true → m.wfFrom lo' size = true
  | [], _ => rfl
  | (a, b) :: rest, h => by
    simp only [Memory.wfFrom, Bool.and_eq_true, decide_eq_true_eq] at h ⊢
    exact ⟨⟨⟨le_trans hle h.1.1.1, h.1.1.2⟩, h.1.2⟩, h.2⟩

theorem Memory.wfFrom_eraseCell (i size : Nat) :
    ∀ {m : Memory} {lo : Nat}, m.wfFrom lo size = true → (m.eraseCell i).wfFrom lo size = true
  | [], _, _ => rfl
  | (a, b) :: rest, lo, h => by
    simp only [Memory.wfFrom, Bool.and_eq_true, decide_eq_true_eq] at h
    rw [Memory.eraseCell]
    split
    · exact Memory.wfFrom_eraseCell i size (Memory.wfFrom_weaken (by omega) h.2)
    · simp only [Memory.wfFrom, Bool.and_eq_true, decide_eq_true_eq]
      exact ⟨h.1, Memory.wfFrom_eraseCell i size h.2⟩

theorem Memory.wfFrom_insertCell {i size : Nat} {v : Byte} (hi : i < size) (hv : v ≠ Config.unlistedByte) :
    ∀ {m : Memory} {lo : Nat}, lo ≤ i → m.wfFrom lo size = true →
      ((m.eraseCell i).insertCell i v).wfFrom lo size = true
  | [], lo, hlo, _ => by simp [Memory.eraseCell, Memory.insertCell, Memory.wfFrom, hlo, hi, hv]
  | (a, b) :: rest, lo, hlo, h => by
    have h' := h
    simp only [Memory.wfFrom, Bool.and_eq_true, decide_eq_true_eq] at h
    rw [Memory.eraseCell]
    split
    · exact Memory.wfFrom_insertCell hi hv hlo (Memory.wfFrom_weaken (by omega) h.2)
    · rename_i hne
      rw [Memory.insertCell]
      split
      · rename_i hlt
        simp only [Memory.wfFrom, Bool.and_eq_true, decide_eq_true_eq]
        exact ⟨⟨⟨hlo, hi⟩, by simpa using hv⟩, ⟨⟨⟨by omega, h.1.1.2⟩, h.1.2⟩, Memory.wfFrom_eraseCell i size h.2⟩⟩
      · rename_i hge
        simp only [Memory.wfFrom, Bool.and_eq_true, decide_eq_true_eq]
        exact ⟨h.1, Memory.wfFrom_insertCell hi hv (by omega) h.2⟩

/-- A byte write inside the unit keeps the canonical form. -/
theorem Memory.wf_writeByte {size i : Nat} {v : Byte} {m : Memory} (hi : i < size) (h : m.wf size = true) :
    (m.writeByte i v).wf size = true := by
  unfold Memory.writeByte
  split
  · exact Memory.wfFrom_eraseCell i size h
  · rename_i hv
    exact Memory.wfFrom_insertCell hi hv (Nat.zero_le i) h

theorem cellIndex_lt {size : Nat} (h : 0 < size) (addr : Word) : cellIndex size addr < size := Nat.mod_lt _ h

theorem nextCellIndex_lt {size : Nat} (h : 0 < size) (addr : Word) : nextCellIndex size addr < size := Nat.mod_lt _ h

theorem cellIndex_dmem (addr : Word) : cellIndex Config.dmemBytes addr = addr.toNat % 32 := rfl

theorem nextCellIndex_dmem (addr : Word) : nextCellIndex Config.dmemBytes addr = (addr.toNat + 1) % 32 := rfl

theorem cellIndex_imem (addr : Word) : cellIndex Config.imemBytes addr = addr.toNat % 32 := rfl

theorem nextCellIndex_imem (addr : Word) : nextCellIndex Config.imemBytes addr = (addr.toNat + 1) % 32 := rfl

/-- A word write keeps the canonical form, at every address. -/
theorem Memory.wf_writeWord {size : Nat} {m : Memory} (hs : 0 < size) (addr v : Word) (h : m.wf size = true) :
    (m.writeWord size addr v).wf size = true :=
  Memory.wf_writeByte (cellIndex_lt hs addr) (Memory.wf_writeByte (nextCellIndex_lt hs addr) h)

theorem Memory.wf_writeCells {size : Nat} (hs : 0 < size) :
    ∀ (cells : List Host.Cell) {m : Memory}, m.wf size = true → (m.writeCells size cells).wf size = true
  | [], _, h => h
  | (i, _) :: rest, _, h => Memory.wf_writeCells hs rest (Memory.wf_writeByte (Nat.mod_lt i hs) h)

theorem Memory.wf_writeProgram {size : Nat} (hs : 0 < size) :
    ∀ (words : List Word) (k : Nat) {m : Memory}, m.wf size = true → (m.writeProgram size k words).wf size = true
  | [], _, _, h => h
  | _ :: rest, k, _, h => Memory.wf_writeProgram hs rest (k + 1) (Memory.wf_writeWord hs _ _ h)

/-! ## Equal contents are equal data -/

/-- A cell below the form's start is not listed. -/
theorem Memory.readByte_below {size : Nat} :
    ∀ {m : Memory} {lo i : Nat}, m.wfFrom lo size = true → i < lo → m.readByte i = Config.unlistedByte
  | [], _, _, _, _ => rfl
  | (a, b) :: rest, lo, i, h, hi => by
    simp only [Memory.wfFrom, Bool.and_eq_true, decide_eq_true_eq] at h
    rw [Memory.readByte_cons, if_neg (by omega)]
    exact Memory.readByte_below h.2 (by omega)

theorem Memory.wfFrom_ext {size : Nat} :
    ∀ {m n : Memory} {lo : Nat}, m.wfFrom lo size = true → n.wfFrom lo size = true →
      (∀ i, m.readByte i = n.readByte i) → m = n
  | [], [], _, _, _, _ => rfl
  | [], (a, b) :: rest, lo, _, hn, he => by
    simp only [Memory.wfFrom, Bool.and_eq_true, bne_iff_ne] at hn
    have := he a
    rw [Memory.readByte_nil, Memory.readByte_cons, if_pos rfl] at this
    exact absurd this.symm hn.1.2
  | (a, b) :: rest, [], lo, hm, _, he => by
    simp only [Memory.wfFrom, Bool.and_eq_true, bne_iff_ne] at hm
    have := he a
    rw [Memory.readByte_nil, Memory.readByte_cons, if_pos rfl] at this
    exact absurd this hm.1.2
  | (a, b) :: m, (c, d) :: n, lo, hm, hn, he => by
    simp only [Memory.wfFrom, Bool.and_eq_true, bne_iff_ne, decide_eq_true_eq] at hm hn
    have hac : a = c := by
      rcases Nat.lt_trichotomy a c with h | h | h
      · have := he a
        rw [Memory.readByte_cons, if_pos rfl, Memory.readByte_cons, if_neg (by omega),
          Memory.readByte_below hn.2 (by omega)] at this
        exact absurd this hm.1.2
      · exact h
      · have := he c
        rw [Memory.readByte_cons, if_neg (by omega), Memory.readByte_below hm.2 (by omega),
          Memory.readByte_cons, if_pos rfl] at this
        exact absurd this.symm hn.1.2
    subst hac
    have hbd : b = d := by simpa [Memory.readByte_cons] using he a
    subst hbd
    have hrest : m = n := Memory.wfFrom_ext hm.2 hn.2 fun i => by
      by_cases hi : i ≤ a
      · rw [Memory.readByte_below hm.2 (by omega), Memory.readByte_below hn.2 (by omega)]
      · have := he i
        rwa [Memory.readByte_cons, Memory.readByte_cons, if_neg (by omega), if_neg (by omega)] at this
    rw [hrest]

/-- Canonical memories with equal cells are equal. -/
theorem Memory.wf_ext {size : Nat} {m n : Memory} (hm : m.wf size = true) (hn : n.wf size = true)
    (he : ∀ i, m.readByte i = n.readByte i) : m = n := Memory.wfFrom_ext hm hn he

/-- No cell outside the unit is listed. -/
theorem Memory.readByte_outside {size : Nat} :
    ∀ {m : Memory} {lo i : Nat}, m.wfFrom lo size = true → size ≤ i → m.readByte i = Config.unlistedByte
  | [], _, _, _, _ => rfl
  | (a, b) :: rest, lo, i, h, hi => by
    simp only [Memory.wfFrom, Bool.and_eq_true, decide_eq_true_eq] at h
    rw [Memory.readByte_cons, if_neg (by omega)]
    exact Memory.readByte_outside h.2 hi

end Sys2Proof.Machine
end

