-- ==== Sys2Proof/Laws/State.lean ====
section
/-! SUPPORT. One lemma per field of State per update, so that no later proof unfolds a record update; and what a register
reads after an update. -/

namespace Sys2Proof.Machine

variable (s : State) (r : RegNum) (v a : Word)

/-! ## writeReg -/
@[simp] theorem State.writeReg_pc : (s.writeReg r v).pc = s.pc := rfl
@[simp] theorem State.writeReg_imem : (s.writeReg r v).imem = s.imem := rfl
@[simp] theorem State.writeReg_dmem : (s.writeReg r v).dmem = s.dmem := rfl
@[simp] theorem State.writeReg_clocks : (s.writeReg r v).clocks = s.clocks := rfl

/-- A write to any register, register 0 included, is read back from it and from no other (spec/10_state.md R12, R14). -/
theorem State.readReg_writeReg (q : RegNum) : (s.writeReg r v).readReg q = if q = r then v else s.readReg q := by
  unfold State.readReg State.writeReg
  rw [Vector.getElem_set]
  by_cases h : q = r
  · subst h; simp
  · have : ¬ r.toNat = q.toNat := fun e => h (BitVec.eq_of_toNat_eq e.symm)
    simp [h, this]

@[simp] theorem State.readReg_writeReg_self : (s.writeReg r v).readReg r = v := by simp [State.readReg_writeReg]

/-! ## setPc and advance -/
@[simp] theorem State.setPc_regs : (s.setPc v).regs = s.regs := rfl
@[simp] theorem State.setPc_pc : (s.setPc v).pc = v := rfl
@[simp] theorem State.setPc_imem : (s.setPc v).imem = s.imem := rfl
@[simp] theorem State.setPc_dmem : (s.setPc v).dmem = s.dmem := rfl
@[simp] theorem State.setPc_clocks : (s.setPc v).clocks = s.clocks := rfl
@[simp] theorem State.setPc_readReg : (s.setPc v).readReg r = s.readReg r := rfl

@[simp] theorem State.advance_regs : s.advance.regs = s.regs := rfl
@[simp] theorem State.advance_pc : s.advance.pc = pcPlus2 s.pc := rfl
@[simp] theorem State.advance_imem : s.advance.imem = s.imem := rfl
@[simp] theorem State.advance_dmem : s.advance.dmem = s.dmem := rfl
@[simp] theorem State.advance_clocks : s.advance.clocks = s.clocks := rfl
@[simp] theorem State.advance_readReg : s.advance.readReg r = s.readReg r := rfl

/-! ## storeWord -/
@[simp] theorem State.storeWord_regs : (s.storeWord a v).regs = s.regs := rfl
@[simp] theorem State.storeWord_pc : (s.storeWord a v).pc = s.pc := rfl
@[simp] theorem State.storeWord_imem : (s.storeWord a v).imem = s.imem := rfl
@[simp] theorem State.storeWord_dmem : (s.storeWord a v).dmem = s.dmem.writeWord Config.dmemBytes a v := rfl
@[simp] theorem State.storeWord_clocks : (s.storeWord a v).clocks = s.clocks := rfl
@[simp] theorem State.storeWord_readReg : (s.storeWord a v).readReg r = s.readReg r := rfl

/-! ## tickClocks -/
@[simp] theorem State.tickClocks_regs : s.tickClocks.regs = s.regs := rfl
@[simp] theorem State.tickClocks_pc : s.tickClocks.pc = s.pc := rfl
@[simp] theorem State.tickClocks_imem : s.tickClocks.imem = s.imem := rfl
@[simp] theorem State.tickClocks_dmem : s.tickClocks.dmem = s.dmem := rfl
@[simp] theorem State.tickClocks_clocks : s.tickClocks.clocks = Trackers.afterPeriod := rfl
@[simp] theorem State.tickClocks_readReg : s.tickClocks.readReg r = s.readReg r := rfl

/-! ## withFetchWord -/
variable (n w : Nat)
@[simp] theorem State.withFetchWord_regs : (s.withFetchWord n w).regs = s.regs := rfl
@[simp] theorem State.withFetchWord_pc : (s.withFetchWord n w).pc = s.pc := rfl
@[simp] theorem State.withFetchWord_imem :
    (s.withFetchWord n w).imem = s.imem.writeWord Config.imemBytes s.pc (tableWord n w) := rfl
@[simp] theorem State.withFetchWord_dmem : (s.withFetchWord n w).dmem = s.dmem := rfl
@[simp] theorem State.withFetchWord_clocks : (s.withFetchWord n w).clocks = s.clocks := rfl

/-- The fetched word is the fetched bytes, high byte first. -/
theorem State.decodeBytes_fetchBytes : decodeBytes s.fetchBytes = .ok (s.fetchInstr, []) := rfl

end Sys2Proof.Machine
end

