-- ==== Sys2Proof/Laws/Ops.lean ====
section
/-! SUPPORT. What each shared operation can do, said once: arithmetic, operand forms, word access, fetch, trackers, latches,
and the steps built of them. -/

namespace Sys2Proof.Machine

/-! ## Arithmetic (spec/40_blocks.md R74, R75, R78) -/

theorem aluAdd_eq (a b : Word) : aluAdd a b = a + b := by
  apply BitVec.eq_of_toNat_eq; simp [aluAdd, norm16]

theorem aluSub_eq (a b : Word) : aluSub a b = a - b := by
  apply BitVec.eq_of_toInt_eq
  simp [aluSub, norm16Int, BitVec.toInt_eq_toNat_bmod, Int.bmod_def]
  omega

/-- `zero` after a subtraction is equality, whatever the order of the operands (R75). -/
theorem zeroSignal_aluSub (a b : Word) : zeroSignal (aluSub a b) = decide (a = b) := by
  rw [aluSub_eq, zeroSignal, Bool.eq_iff_iff]
  simp only [beq_iff_eq, decide_eq_true_eq]
  constructor
  · intro h; bv_omega
  · rintro rfl; simp

theorem pcPlus2_toNat (pc : Word) : (pcPlus2 pc).toNat = (pc.toNat + 2) % 65536 := by
  simp [pcPlus2, Config.pcStep]

/-- The ALU has a result exactly on the five defined codes (R73, R79). -/
theorem alu_isSome (a b : Word) (op : BitVec 3) : (alu a b op).isSome = decide (op.toNat ≤ 4) := by
  obtain ⟨⟨n, hn⟩⟩ := op
  interval_cases n <;> rfl

/-! ## Word access -/

/-- A word is its two bytes, high byte first (spec/20_memory.md R34). -/
theorem hiByte_append_loByte (w : Word) : hiByte w ++ loByte w = w := by
  apply BitVec.eq_of_getLsbD_eq
  intro i hi
  simp only [hiByte, loByte, BitVec.getLsbD_append, BitVec.getLsbD_extractLsb']
  by_cases h : i < 8
  · simp [h]
  · have h1 : i - 8 < 8 := by omega
    have h2 : 8 + (i - 8) = i := by omega
    simp [h, h1, h2]

/-- The word stored is the word loaded at the same address (spec/20_memory.md R45). -/
theorem State.loadWord_storeWord (s : State) (a v : Word) : (s.storeWord a v).loadWord a = v := by
  have hne : nextCellIndex Config.dmemBytes a ≠ cellIndex Config.dmemBytes a := by
    unfold nextCellIndex cellIndex; show (a.toNat + 1) % 32 ≠ a.toNat % 32; omega
  rw [State.loadWord, State.storeWord_dmem, Memory.readWord, Memory.readByte_writeWord, Memory.readByte_writeWord,
    if_pos rfl, if_neg hne, if_pos rfl, hiByte_append_loByte]

/-- `withFetchWord` places the word that is fetched next. -/
theorem State.fetchWord_withFetchWord (s : State) (n w : Nat) : (s.withFetchWord n w).fetchWord = tableWord n w := by
  have hne : nextCellIndex Config.imemBytes s.pc ≠ cellIndex Config.imemBytes s.pc := by
    unfold nextCellIndex cellIndex; show (s.pc.toNat + 1) % 32 ≠ s.pc.toNat % 32; omega
  rw [State.fetchWord, State.withFetchWord_imem, State.withFetchWord_pc, Memory.readWord, Memory.readByte_writeWord,
    Memory.readByte_writeWord, if_pos rfl, if_neg hne, if_pos rfl, hiByte_append_loByte]

/-! ## Clock trackers (40_blocks.md R71, R72) -/

/-- A tracker fires exactly on a 0-to-1 transition. -/
theorem Tracker.fires_eq (t : Tracker) (level : Bool) : t.fires level = (level && !t.current) := by
  obtain ⟨c, p⟩ := t
  cases c <;> cases p <;> cases level <;> rfl

@[simp] theorem Tracker.onClock_current (t : Tracker) (level : Bool) : (t.onClock level).current = level := by
  obtain ⟨c, p⟩ := t
  cases c <;> cases p <;> cases level <;> rfl

/-- A repeated level changes nothing (R71, idempotence). -/
theorem Tracker.onClock_same {t : Tracker} {level : Bool} (h : t.current = level) : t.onClock level = t := by
  simp [Tracker.onClock, h]

/-- A low level and then a high one leave the pair (1, 0), whatever it was before. -/
theorem Tracker.onClock_period (t : Tracker) : (t.onClock false).onClock true = ⟨true, false⟩ := by
  obtain ⟨c, p⟩ := t
  cases c <;> cases p <;> rfl

theorem Trackers.ext {c d : Trackers} (hr : ∀ i, c.regs.get i = d.regs.get i) (hp : c.pc = d.pc)
    (hi : ∀ i, c.imem.get i = d.imem.get i) (hd : ∀ i, c.dmem.get i = d.dmem.get i) : c = d := by
  obtain ⟨cr, cp, ci, cd⟩ := c
  obtain ⟨dr, dp, di, dd⟩ := d
  have h1 : cr = dr := Vector.ext fun i hi => hr ⟨i, hi⟩
  have h2 : ci = di := Vector.ext fun i h => hi ⟨i, h⟩
  have h3 : cd = dd := Vector.ext fun i h => hd ⟨i, h⟩
  simp_all

@[simp] theorem Trackers.onClock_regs_get (c : Trackers) (level : Bool) (i : Fin Config.nregs) :
    (c.onClock level).regs.get i = (c.regs.get i).onClock level := by simp [Trackers.onClock, Vector.get_ofFn]
@[simp] theorem Trackers.onClock_pc (c : Trackers) (level : Bool) : (c.onClock level).pc = c.pc.onClock level := rfl
@[simp] theorem Trackers.onClock_imem_get (c : Trackers) (level : Bool) (i : Fin Config.imemBytes) :
    (c.onClock level).imem.get i = (c.imem.get i).onClock level := by simp [Trackers.onClock, Vector.get_ofFn]
@[simp] theorem Trackers.onClock_dmem_get (c : Trackers) (level : Bool) (i : Fin Config.dmemBytes) :
    (c.onClock level).dmem.get i = (c.dmem.get i).onClock level := by simp [Trackers.onClock, Vector.get_ofFn]

@[simp] theorem Trackers.all_regs_get (t : Tracker) (i : Fin Config.nregs) : (Trackers.all t).regs.get i = t := by
  simp [Trackers.all, Vector.get]
@[simp] theorem Trackers.all_pc (t : Tracker) : (Trackers.all t).pc = t := rfl
@[simp] theorem Trackers.all_imem_get (t : Tracker) (i : Fin Config.imemBytes) : (Trackers.all t).imem.get i = t := by
  simp [Trackers.all, Vector.get]
@[simp] theorem Trackers.all_dmem_get (t : Tracker) (i : Fin Config.dmemBytes) : (Trackers.all t).dmem.get i = t := by
  simp [Trackers.all, Vector.get]

/-- Trackers in step stay in step (R72). -/
theorem Trackers.onClock_all (t : Tracker) (level : Bool) :
    (Trackers.all t).onClock level = Trackers.all (t.onClock level) := by
  apply Trackers.ext <;> simp

/-- A low level and then a high one leave every tracker at (1, 0), whatever it held before. -/
theorem Trackers.onClock_low_high (c : Trackers) : (c.onClock false).onClock true = Trackers.afterPeriod := by
  apply Trackers.ext <;> simp [Trackers.afterPeriod, Tracker.onClock_period]

/-! ## Latches (10_state.md R14; 20_memory.md R33) -/

/-- What a cell holds after a level, each cell deciding for itself. -/
theorem Memory.readByte_latchCells (size : Nat) (fires : Nat → Bool) (wen : Bool) (addr wdata : Word) (m : Memory) (j : Nat) :
    ∀ n, (m.latchCells size fires wen addr wdata n).readByte j =
      if j < n ∧ fires j = true ∧ wen = true then
        if j = cellIndex size addr then hiByte wdata
        else if j = nextCellIndex size addr then loByte wdata else m.readByte j
      else m.readByte j
  | 0 => by simp [Memory.latchCells]
  | n + 1 => by
    have ih := Memory.readByte_latchCells size fires wen addr wdata m j n
    rcases Nat.lt_trichotomy j n with h | h | h
    · have h1 : j < n + 1 := by omega
      have h2 : j ≠ n := by omega
      simp only [Memory.latchCells]
      split
      · split
        · rw [Memory.readByte_writeByte, if_neg h2, ih]; simp [h, h1]
        · split
          · rw [Memory.readByte_writeByte, if_neg h2, ih]; simp [h, h1]
          · rw [ih]; simp [h, h1]
      · rw [ih]; simp [h, h1]
    · subst h
      simp only [Memory.latchCells, Nat.lt_irrefl, false_and, if_false] at ih ⊢
      by_cases hf : fires j = true ∧ wen = true
      · simp only [hf.1, hf.2, Bool.and_self, if_true, Nat.lt_succ_self, and_self]
        rw [hf.2] at ih
        split
        · rw [Memory.readByte_writeByte, if_pos rfl]
        · split
          · rw [Memory.readByte_writeByte, if_pos rfl]
          · rw [ih]
      · have : (fires j && wen) = false := by
          rw [Bool.eq_false_iff]; simpa [Bool.and_eq_true] using hf
        simp [this, ih, hf]
    · have h1 : ¬ j < n + 1 := by omega
      have h2 : j ≠ n := by omega
      have h3 : ¬ j < n := by omega
      simp only [h1, h3, false_and, if_false] at ih ⊢
      simp only [Memory.latchCells]
      split
      · split
        · rw [Memory.readByte_writeByte, if_neg h2, ih]
        · split
          · rw [Memory.readByte_writeByte, if_neg h2, ih]
          · rw [ih]
      · rw [ih]

/-- The cells' own updates keep the canonical form. -/
theorem Memory.wf_latchCells {size : Nat} (fires : Nat → Bool) (wen : Bool) (addr wdata : Word) {m : Memory}
    (h : m.wf size = true) : ∀ {n : Nat}, n ≤ size → (m.latchCells size fires wen addr wdata n).wf size = true
  | 0, _ => h
  | n + 1, hn => by
    have ih := Memory.wf_latchCells fires wen addr wdata h (n := n) (by omega)
    simp only [Memory.latchCells]
    split
    · split
      · exact Memory.wf_writeByte (by omega) ih
      · split
        · exact Memory.wf_writeByte (by omega) ih
        · exact ih
    · exact ih

/-! ## What an instruction, a step and a settled cycle can be -/

/-- Everything `exec` can do: it always answers a next state; the instruction memory and the clocks are as before; the
registers are as before or one is written; the data memory is as before or one word is stored. -/
theorem exec_cases (i : Instr) (s : State) :
    ∃ t, exec i s = .next t ∧ t.imem = s.imem ∧ t.clocks = s.clocks ∧
      (t.regs = s.regs ∨ ∃ r v, t.regs = (s.writeReg r v).regs) ∧
      (t.dmem = s.dmem ∨ ∃ a v, t.dmem = s.dmem.writeWord Config.dmemBytes a v) ∧
      (t.pc = pcPlus2 s.pc ∨ (∃ k, t.pc = branchTarget s.pc k) ∨ ∃ f, t.pc = jumpTarget s.pc f) := by
  cases i with
  | add rd rs rt => exact ⟨_, rfl, rfl, rfl, .inr ⟨_, _, rfl⟩, .inl rfl, .inl rfl⟩
  | sub rd rs rt => exact ⟨_, rfl, rfl, rfl, .inr ⟨_, _, rfl⟩, .inl rfl, .inl rfl⟩
  | and rd rs rt => exact ⟨_, rfl, rfl, rfl, .inr ⟨_, _, rfl⟩, .inl rfl, .inl rfl⟩
  | or rd rs rt => exact ⟨_, rfl, rfl, rfl, .inr ⟨_, _, rfl⟩, .inl rfl, .inl rfl⟩
  | slt rd rs rt => exact ⟨_, rfl, rfl, rfl, .inr ⟨_, _, rfl⟩, .inl rfl, .inl rfl⟩
  | addi rt rs imm => exact ⟨_, rfl, rfl, rfl, .inr ⟨_, _, rfl⟩, .inl rfl, .inl rfl⟩
  | lw rt rs imm => exact ⟨_, rfl, rfl, rfl, .inr ⟨_, _, rfl⟩, .inl rfl, .inl rfl⟩
  | sw rt rs imm => exact ⟨_, rfl, rfl, rfl, .inl rfl, .inr ⟨_, _, rfl⟩, .inl rfl⟩
  | beq rs rt imm =>
    by_cases h : zeroSignal (aluSub (s.readReg rs) (s.readReg rt)) = true
    · exact ⟨s.setPc (branchTarget s.pc imm), by simp [exec, execBeq, h], rfl, rfl, .inl rfl, .inl rfl, .inr (.inl ⟨imm, rfl⟩)⟩
    · exact ⟨s.advance, by simp [exec, execBeq, h], rfl, rfl, .inl rfl, .inl rfl, .inl rfl⟩
  | jump f => exact ⟨_, rfl, rfl, rfl, .inl rfl, .inl rfl, .inr (.inr ⟨f, rfl⟩)⟩
  | rsvd101x o g => exact ⟨_, rfl, rfl, rfl, .inl rfl, .inl rfl, .inl rfl⟩
  | rsvd11xx o g => exact ⟨_, rfl, rfl, rfl, .inl rfl, .inl rfl, .inl rfl⟩

/-- A step is the fetched instruction's effect with the clocks moved over one period. -/
theorem step_of_exec {s t : State} (h : exec s.fetchInstr s = .next t) : step s = .next t.tickClocks := by
  simp [step, h]

/-- `settle` answers the signals built on the ALU's result, or the unreachable code. -/
theorem settle_cases (s : State) :
    (∃ r, alu (s.readReg (rsField s.fetchWord))
          (aluSrcMux (controlTable (opcodeField s.fetchWord)).aluSrc (s.readReg (rtField s.fetchWord)) (imm16 (rdField s.fetchWord)))
          (controlTable (opcodeField s.fetchWord)).aluOp = some r ∧
        settle s = .ok (settleWith s s.fetchWord (controlTable (opcodeField s.fetchWord)) (s.readReg (rsField s.fetchWord))
          (s.readReg (rtField s.fetchWord)) (imm16 (rdField s.fetchWord))
          (aluSrcMux (controlTable (opcodeField s.fetchWord)).aluSrc (s.readReg (rtField s.fetchWord)) (imm16 (rdField s.fetchWord))) r)) ∨
      settle s = .error (.unreachable (controlTable (opcodeField s.fetchWord)).aluOp) := by
  unfold settle
  dsimp only
  split
  · rename_i r h; exact .inl ⟨r, h, rfl⟩
  · exact .inr rfl

end Sys2Proof.Machine
end

