-- ==== Sys2Proof/Laws/Frames.lean ====
section
/-! SUPPORT. How the relations and invariants of Safety.lean pass through the clock's own update. Cite
these instead of comparing two `tickClocks` states by unification, which may unfold the 81 trackers. -/

namespace Sys2Proof.Machine

theorem State.MemoriesCanonical_tickClocks {s : State} (h : s.MemoriesCanonical) : s.tickClocks.MemoriesCanonical := by
  simpa only [State.MemoriesCanonical, State.tickClocks_imem, State.tickClocks_dmem] using h

theorem State.SameArchitecture_tickClocks {s t : State} (h : s.SameArchitecture t) :
    s.tickClocks.SameArchitecture t.tickClocks := by
  simpa only [State.SameArchitecture, State.tickClocks_regs, State.tickClocks_pc, State.tickClocks_imem,
    State.tickClocks_dmem] using h

theorem State.SameButHighPc_tickClocks {s t : State} (h : s.SameButHighPc t) :
    s.tickClocks.SameButHighPc t.tickClocks := by
  obtain ⟨h1, h2, h3, h4, _⟩ := h
  simp only [State.SameButHighPc, State.tickClocks_regs, State.tickClocks_pc, State.tickClocks_imem,
    State.tickClocks_dmem, State.tickClocks_clocks]
  exact ⟨h1, h2, h3, h4, trivial⟩

/-- Two register files that read the same are equal. -/
theorem State.regs_ext {s t : State} (h : ∀ r, s.readReg r = t.readReg r) : s.regs = t.regs := by
  apply Vector.ext
  intro i hi
  have hr := h (BitVec.ofNat 4 i)
  have e : i % 16 = i := Nat.mod_eq_of_lt hi
  simpa [State.readReg, e] using hr

end Sys2Proof.Machine
end

