-- ==== Sys2Proof/Laws/PerInstr.lean ====
section
/-! SUPPORT. Statements about every instruction as syntax, one lemma per constructor of Instr. -/

namespace Sys2Proof.Laws

open Sys2Proof

namespace OpcodeRowMatches

/-- A well-formed instruction's word lies in the row of the opcode table that its mnemonic names (spec/30_encoding.md R55). -/
def Statement (i : Instr) : Prop :=
  i.wellFormed = true → ∃ r ∈ opcodeTable, r.mnemonic = i.mnemonic ∧ r.matchesWord (encode i) = true

theorem register_row (op rs rt rd : BitVec 4) : (op ++ rs ++ rt ++ rd) &&& 0xF000#16 = op ++ 0#12 := by
  ext j hj; simp only [BitVec.getElem_and, BitVec.getElem_append]
  have : j = 0 ∨ j = 1 ∨ j = 2 ∨ j = 3 ∨ j = 4 ∨ j = 5 ∨ j = 6 ∨ j = 7 ∨ j = 8 ∨ j = 9 ∨ j = 10 ∨ j = 11 ∨ j = 12 ∨ j = 13 ∨ j = 14 ∨ j = 15 := by omega
  rcases this with rfl | rfl | rfl | rfl | rfl | rfl | rfl | rfl | rfl | rfl | rfl | rfl | rfl | rfl | rfl | rfl <;> simp

theorem add (rd rs rt : RegNum) : Statement (.add rd rs rt) := fun _ =>
  ⟨⟨"ADD", 0xF000, 0x0000⟩, by simp [opcodeTable], rfl, by simp [OpcodeRow.matchesWord, encode, register_row]⟩
theorem sub (rd rs rt : RegNum) : Statement (.sub rd rs rt) := fun _ =>
  ⟨⟨"SUB", 0xF000, 0x1000⟩, by simp [opcodeTable], rfl, by simp [OpcodeRow.matchesWord, encode, register_row]⟩
theorem and (rd rs rt : RegNum) : Statement (.and rd rs rt) := fun _ =>
  ⟨⟨"AND", 0xF000, 0x2000⟩, by simp [opcodeTable], rfl, by simp [OpcodeRow.matchesWord, encode, register_row]⟩
theorem or (rd rs rt : RegNum) : Statement (.or rd rs rt) := fun _ =>
  ⟨⟨"OR", 0xF000, 0x3000⟩, by simp [opcodeTable], rfl, by simp [OpcodeRow.matchesWord, encode, register_row]⟩
theorem slt (rd rs rt : RegNum) : Statement (.slt rd rs rt) := fun _ =>
  ⟨⟨"SLT", 0xF000, 0x4000⟩, by simp [opcodeTable], rfl, by simp [OpcodeRow.matchesWord, encode, register_row]⟩
theorem addi (rt rs : RegNum) (imm4 : Imm4) : Statement (.addi rt rs imm4) := fun _ =>
  ⟨⟨"ADDI", 0xF000, 0x5000⟩, by simp [opcodeTable], rfl, by simp [OpcodeRow.matchesWord, encode, register_row]⟩
theorem lw (rt rs : RegNum) (imm4 : Imm4) : Statement (.lw rt rs imm4) := fun _ =>
  ⟨⟨"LW", 0xF000, 0x6000⟩, by simp [opcodeTable], rfl, by simp [OpcodeRow.matchesWord, encode, register_row]⟩
theorem sw (rt rs : RegNum) (imm4 : Imm4) : Statement (.sw rt rs imm4) := fun _ =>
  ⟨⟨"SW", 0xF000, 0x7000⟩, by simp [opcodeTable], rfl, by simp [OpcodeRow.matchesWord, encode, register_row]⟩
theorem beq (rs rt : RegNum) (imm4 : Imm4) : Statement (.beq rs rt imm4) := fun _ =>
  ⟨⟨"BEQ", 0xF000, 0x8000⟩, by simp [opcodeTable], rfl, by simp [OpcodeRow.matchesWord, encode, register_row]⟩

/-- The word of a 4-bit opcode and twelve more bits has the opcode's top bits, whatever the twelve are. -/
theorem high_row (op : BitVec 4) (f : BitVec 12) (mask : BitVec 4) : (op ++ f) &&& (mask ++ 0#12) = (op &&& mask) ++ 0#12 := by
  ext j hj; simp only [BitVec.getElem_and, BitVec.getElem_append]
  split <;> simp

theorem jump (field12 : BitVec 12) : Statement (.jump field12) := fun _ =>
  ⟨⟨"JUMP", 0xF000, 0x9000⟩, by simp [opcodeTable], rfl, by
    have := high_row 0b1001#4 field12 0b1111#4
    simpa [OpcodeRow.matchesWord, encode] using this⟩
theorem rsvd101x (opcode : BitVec 4) (ignored : BitVec 12) : Statement (.rsvd101x opcode ignored) := fun h =>
  ⟨⟨"RSVD_101x", 0xE000, 0xA000⟩, by simp [opcodeTable], rfl, by
    have hop : opcode &&& 0b1110#4 = 0b1010#4 := by
      change (opcode.extractLsb' 1 3 == 0b101#3) = true at h
      revert opcode; decide
    have := high_row opcode ignored 0b1110#4
    rw [hop] at this
    simpa [OpcodeRow.matchesWord, encode] using this⟩
theorem rsvd11xx (opcode : BitVec 4) (ignored : BitVec 12) : Statement (.rsvd11xx opcode ignored) := fun h =>
  ⟨⟨"RSVD_11xx", 0xC000, 0xC000⟩, by simp [opcodeTable], rfl, by
    have hop : opcode &&& 0b1100#4 = 0b1100#4 := by
      change (opcode.extractLsb' 2 2 == 0b11#2) = true at h
      revert opcode; decide
    have := high_row opcode ignored 0b1100#4
    rw [hop] at this
    simpa [OpcodeRow.matchesWord, encode] using this⟩

end OpcodeRowMatches

end Sys2Proof.Laws
end

