-- ==== Sys2Proof/Tests/Slice0.lean ====
section
/-! SUPPORT. Small tests of the model, each expected result taken from spec/95_test_vectors.md or worked out by hand from the
rule named: the well-formedness checks, decoding of words written out bit by bit, one step per case, the clock, the launch
state; and for every statement with hypotheses a concrete state that meets them. -/

namespace Sys2Proof.Tests

open Sys2Proof Sys2Proof.Machine

/-! ## Helpers -/

/-- The next state of an outcome. -/
def after (o : Host.Outcome State Fault Refusal) : Option State :=
  match o with
  | .next t => some t
  | .fault _ => none
  | .refused _ => none

/-- The launch state with registers 1, 2 and 11 and the program counter preset. -/
def start (r1 r2 r11 pc : Word) (data : List Host.Cell) : State :=
  State.launch { regs := ((Vector.replicate 16 0).set 1 r1).set 2 r2 |>.set 11 r11, pc := pc, data := data }

/-- One step running the word `w`: a register after it. -/
def regAfter (s : State) (w : Nat) (r : RegNum) : Option Word := (after (step (s.withFetchWord 16 w))).map (·.readReg r)

/-- One step running the word `w`: the program counter after it. -/
def pcAfter (s : State) (w : Nat) : Option Word := (after (step (s.withFetchWord 16 w))).map (·.pc)

/-- One step running the word `w`: the data memory after it. -/
def dataAfter (s : State) (w : Nat) : Option Memory := (after (step (s.withFetchWord 16 w))).map (·.dmem)

/-! ## The widths of the types are the parameters of 00_scope.md R5 -/

theorem test_widths : Word = BitVec Config.xlen ∧ Word = BitVec Config.ilen ∧ Imm4 = BitVec Config.immBits := ⟨rfl, rfl, rfl⟩
theorem test_selector_widths (w : Word) (opcode : BitVec Config.opcodeBits) :
    opcodeField w = (w.extractLsb' 12 Config.opcodeBits) ∧ (controlTable opcode).aluOp.toNat < 2 ^ Config.aluOpBits :=
  ⟨rfl, (controlTable opcode).aluOp.isLt⟩

/-! ## Well-formedness: each check refuses an ill-formed term -/

theorem test_wf_rsvd101x_refuses_defined_opcode : (Instr.rsvd101x 0b1001 0).wellFormed = false := by decide
theorem test_wf_rsvd101x_refuses_11xx : (Instr.rsvd101x 0b1100 0).wellFormed = false := by decide
theorem test_wf_rsvd11xx_refuses_101x : (Instr.rsvd11xx 0b1011 0).wellFormed = false := by decide
theorem test_wf_rsvd_accepts : (Instr.rsvd101x 0b1011 0xFFF).wellFormed = true ∧ (Instr.rsvd11xx 0b1110 1).wellFormed = true := by
  decide

/-! ## Decoding of words written out from the encodings (41 to 45; 95_test_vectors.md V3, V7 to V11) -/

theorem test_decode_add : decodeWord 0b0000_0001_0010_0011 = .add 3 1 2 := by decide
theorem test_decode_sub : decodeWord 0b0001_0011_0010_0100 = .sub 4 3 2 := by decide
theorem test_decode_and : decodeWord 0b0010_0001_0010_0011 = .and 3 1 2 := by decide
theorem test_decode_or : decodeWord 0b0011_0001_0010_0011 = .or 3 1 2 := by decide
theorem test_decode_slt : decodeWord 0b0100_0010_0001_0101 = .slt 5 2 1 := by decide
theorem test_decode_addi : decodeWord 0b0101_0001_0010_1101 = .addi 2 1 0b1101 := by decide
theorem test_decode_lw : decodeWord 0b0110_1011_1100_0000 = .lw 12 11 0 := by decide
theorem test_decode_sw : decodeWord 0b0111_1011_0001_0000 = .sw 1 11 0 := by decide
theorem test_decode_beq : decodeWord 0b1000_0001_0010_0011 = .beq 1 2 3 := by decide
theorem test_decode_jump : decodeWord 0b1001_1010_1011_1100 = .jump 0xABC := by decide
theorem test_decode_rsvd101x : decodeWord 0b1010_0001_0010_0011 = .rsvd101x 0b1010 0x123 := by decide
theorem test_decode_rsvd1011 : decodeWord 0b1011_1111_1111_1111 = .rsvd101x 0b1011 0xFFF := by decide
theorem test_decode_rsvd11xx : decodeWord 0b1101_0000_1111_0000 = .rsvd11xx 0b1101 0x0F0 := by decide
theorem test_decode_rsvd1111 : decodeWord 0xFFFF = .rsvd11xx 0b1111 0xFFF := by decide
/-- The byte at the lower address holds opcode and `rs` (30_encoding.md R59). -/
theorem test_decodeBytes_order : decodeBytes [0x50, 0x15, 0xAA] = .ok (.addi 1 0 5, [0xAA]) := by decide
theorem test_decodeBytes_truncated : decodeBytes [0x50] = .error .truncated := by decide
theorem test_decodeTableWord_sub : decodeTableWord 16 0x1324 = some (.sub 4 3 2) := by decide
theorem test_encode_addi : encodeBytes (.addi 2 1 0b1101) = [0x51, 0x2D] := by decide

/-! ## Assembly forms (30_encoding.md R60) -/

theorem test_assemble_addi : assemble (.op "ADDI" [.reg 2, .reg 1, .imm (-3)]) = some (decodeWord 0x512D) := by decide
theorem test_assemble_sw : assemble (.op "SW" [.reg 1, .mem 0 11]) = some (decodeWord 0x7B10) := by decide
theorem test_assemble_refuses_large_immediate : assemble (.op "ADDI" [.reg 2, .reg 1, .imm 8]) = none := by decide

/-! ## One step per case (V7 to V11) -/

theorem test_add_wraps : regAfter (start 0xFFFF 2 0 0 []) 0x0123 3 = some 0x0001 := by decide
theorem test_add_same_register : regAfter (start 0x4000 0 0 0 []) 0x0111 1 = some 0x8000 := by decide
theorem test_sub_wraps : regAfter (start 3 5 0 0 []) 0x1123 3 = some 0xFFFE := by decide
theorem test_and : regAfter (start 0x0F0F 0x00FF 0 0 []) 0x2123 3 = some 0x000F := by decide
theorem test_or : regAfter (start 0x0F0F 0x00FF 0 0 []) 0x3123 3 = some 0x0FFF := by decide
theorem test_slt_is_unsigned : regAfter (start 0xFFFF 1 0 0 []) 0x4123 3 = some 0 := by decide
theorem test_slt_operand_order : regAfter (start 0xFFFF 1 0 0 []) 0x4213 3 = some 1 := by decide
theorem test_addi_negative : regAfter (start 0 0 0 0 []) 0x5018 1 = some 0xFFF8 := by decide
/-- Register 0 is writable; a model with a hard-wired register 0 fails here (V8). -/
theorem test_addi_writes_register_zero : regAfter (start 0 0 0 0 []) 0x5001 0 = some 1 := by decide
/-- Base overwritten, alias modulo 32 (V9). -/
theorem test_lw_alias_overwrites_base : regAfter (start 0x0104 0 0 0 [(4, 0x00), (5, 0x2A)]) 0x6110 1 = some 0x002A := by decide
/-- Sum wraps, odd address (V9). -/
theorem test_lw_wraps_odd : regAfter (start 0xFFFE 0 0 0 [(5, 0xAA), (6, 0xBB)]) 0x6137 3 = some 0xAABB := by decide
theorem test_sw_big_endian : dataAfter (start 0xBEEF 0 4 0 []) 0x7B10 = some [(4, 0xBE), (5, 0xEF)] := by decide
/-- The cell after 31 is 0 (V9). -/
theorem test_sw_wraps_at_end : dataAfter (start 0 0x1234 0 0 []) 0x712F = some [(0, 0x34), (31, 0x12)] := by decide
theorem test_beq_taken : pcAfter (start 7 7 0 4 []) 0x8123 = some 0x000C := by decide
theorem test_beq_not_taken : pcAfter (start 7 8 0 4 []) 0x8123 = some 0x0006 := by decide
theorem test_jump_drops_bit_11 : pcAfter (start 0 0 0 0x000A []) 0x9802 = some 0x0004 := by decide
theorem test_jump_keeps_own_high_bits : pcAfter (start 0 0 0 0xFFFE []) 0x9000 = some 0xF000 := by decide
theorem test_rsvd101x_only_advances : after (step ((start 4 2 0 6 []).withFetchWord 16 0xA123)) =
    some { (start 4 2 0 6 []).withFetchWord 16 0xA123 with pc := 8, clocks := Trackers.all ⟨true, false⟩ } := by decide
theorem test_rsvd11xx_advances : pcAfter (start 0 0 0 0 []) 0xFFFF = some 0x0002 := by decide
/-- An odd program counter fetches two bytes across two instructions and stays odd (20_memory.md R35, 10_state.md R18). -/
theorem test_odd_fetch : pcAfter (start 0 0 0 0x001F []) 0xA000 = some 0x0021 := by decide

/-! ## Blocks and the clock (V1, V4, V12) -/

theorem test_alu_undefined_code : alu 1 2 0b101 = none ∧ alu 1 2 0b111 = none := by decide
theorem test_control_sw : controlTable 7 = ⟨false, true, false, false, true, false, 0b000, false⟩ := by decide
theorem test_rising_edges : risingEdges false [false, false, false, true, true, true, false, false, true] = 2 := by decide
theorem test_rising_edge_at_first_high_sample : risingEdges false [true, true, false, true] = 2 := by decide
/-- A high level fires once, a repeated one does not: one ADDI executes (V12, last row). -/
theorem test_constant_level_executes_once :
    (after (clockLevels [false, true, true] ((start 0 0 0 0 []).withFetchWord 16 0x5111))).map (fun t => (t.readReg 1, t.pc)) =
      some (1, 2) := by decide
/-- Only the elements whose own tracker fires change: with the pc's tracker already high, `x[1]` is written and pc held (R72). -/
theorem test_elements_have_their_own_tracker :
    let s := (start 0 0 0 0 []).withFetchWord 16 0x5111
    (after (clockLevel true { s with clocks := { s.clocks with pc := ⟨true, false⟩ } })).map (fun t => (t.readReg 1, t.pc)) =
      some (1, 0) := by decide

/-! ## Launch -/

theorem test_launch_places_program : (State.launch { program := [0x5015, 0x5023] }).imem =
    [(0, 0x50), (1, 0x15), (2, 0x50), (3, 0x23)] := by decide
theorem test_core_runs : (after (Host.Core.run Sys2Proof.core 1 (State.launch { program := [0x5015] }))).map (·.readReg 1) =
    some 5 := by decide

/-! ## Witnesses: states that meet the hypotheses of the statements that have any -/

theorem witness_DecodeOfEncodeReturnsInstruction : (Instr.rsvd101x 0b1011 0xFFF).wellFormed = true := by decide
theorem witness_AssemblyFormStandsForInstruction : (Instr.rsvd11xx 0b1100 0).wellFormed = true := by decide
theorem witness_StepRunsDecodedInstruction :
    let s := (start 0 0 0 0x001F []).withFetchWord 16 0x5111
    (Instr.addi 1 1 1).wellFormed = true ∧
      decodeBytes [s.imem.readByte (s.pc.toNat % 32), s.imem.readByte ((s.pc.toNat + 1) % 32)] = .ok (.addi 1 1 1, []) := by
  decide
theorem witness_ReservedOpcodesOnlyAdvance : 10 ≤ (0b1010#4).toNat ∧ 10 ≤ (0b1111#4).toNat := by decide
theorem witness_DefaultControlWordWritesNothing : 10 ≤ (0b1010#4).toNat := by decide

/-- The signals a state settles to. -/
def signals (s : State) : Option Signals :=
  match settle s with
  | .ok g => some g
  | .error _ => none

theorem witness_NextPcFollowsJumpBranchZero_jump :
    (signals ((start 0 0 0 0 []).withFetchWord 16 0x9002)).map (·.control.jump) = some true := by decide
theorem witness_NextPcFollowsJumpBranchZero_taken :
    (signals ((start 7 7 0 0 []).withFetchWord 16 0x8123)).map (fun g => (g.control.jump, g.control.branch, g.zero)) =
      some (false, true, true) := by decide
theorem witness_NextPcFollowsJumpBranchZero_sequence :
    (signals ((start 7 8 0 0 []).withFetchWord 16 0x8123)).map (fun g => (g.control.jump, g.control.branch, g.zero)) =
      some (false, true, false) := by decide
theorem witness_ImmediateIsSignExtended :
    (signals ((start 0 0 0 0 []).withFetchWord 16 0x5018)).map (·.instr.toNat / 4096) = some 5 ∧
    (signals ((start 0 0 0 0 []).withFetchWord 16 0x7128)).map (·.instr.toNat / 4096) = some 7 := by decide
theorem witness_AddressesAliasModuloSize : (0x0004 : Word).toNat % 32 = (0xFFE4 : Word).toNat % 32 := by decide
theorem witness_TrackerFiresOnRisingEdgeOnly : (⟨false, true⟩ : Tracker).current = false := by decide
theorem witness_LevelsWithoutRisingEdgeHoldState_falling :
    ∃ s : State, s.LockStep ⟨true, false⟩ ∧ ¬ ((⟨true, false⟩ : Tracker).current = false ∧ false = true) :=
  ⟨{ State.reset with clocks := Trackers.all ⟨true, false⟩ }, rfl, by decide⟩
theorem witness_LevelsWithoutRisingEdgeHoldState_constant :
    ∃ s : State, s.LockStep ⟨true, false⟩ ∧ ¬ ((⟨true, false⟩ : Tracker).current = false ∧ true = true) :=
  ⟨{ State.reset with clocks := Trackers.all ⟨true, false⟩ }, rfl, by decide⟩
theorem witness_TrackersStayInStep : State.reset.LockStep ⟨false, false⟩ := rfl
theorem witness_LowThenHighLevelIsOneStep : (start 7 8 9 0x0101 [(3, 1), (31, 2)]).MemoriesCanonical := by decide
theorem witness_InstructionsExecutedEqualRisingEdges :
    State.reset.MemoriesCanonical ∧ State.reset.LockStep ⟨false, false⟩ := ⟨by decide, rfl⟩
theorem witness_StepKeepsMemoriesCanonical :
    ∃ s t : State, s.MemoriesCanonical ∧ step s = .next t ∧ s.dmem ≠ t.dmem :=
  ⟨(start 0xBEEF 0 4 0 []).withFetchWord 16 0x7B10, _, by decide, rfl, by decide⟩
theorem witness_StepKeepsPcParityUntilJump_jump :
    ∃ s t : State, step s = .next t ∧ s.fetchInstr = .jump 2 ∧ ¬ s.PcEven :=
  ⟨(start 0 0 0 0x000B []).withFetchWord 16 0x9002, _, rfl, by decide, by decide⟩
theorem witness_StepKeepsPcParityUntilJump_other :
    ∃ s t : State, step s = .next t ∧ ∀ f, s.fetchInstr ≠ .jump f :=
  ⟨(start 0 0 0 0x000B []).withFetchWord 16 0x8123, _, rfl, fun f h => by
    have : ((start 0 0 0 0x000B []).withFetchWord 16 0x8123).fetchInstr = .beq 1 2 3 := by decide
    rw [this] at h; cases h⟩
theorem witness_StepChangesAtMostOneRegister : ∃ s t : State, step s = .next t ∧ t.readReg 1 ≠ s.readReg 1 :=
  ⟨(start 0 0 0 0 []).withFetchWord 16 0x5015, _, rfl, by decide⟩
theorem witness_OnlySwChangesDataMemory_high : ∃ s t : State, step s = .next t ∧ t.dataByte 31 ≠ s.dataByte 31 :=
  ⟨(start 0 0x1234 0 0 []).withFetchWord 16 0x712F, _, rfl, by decide⟩
theorem witness_OnlySwChangesDataMemory_low : ∃ s t : State, step s = .next t ∧ t.dataByte 0 ≠ s.dataByte 0 :=
  ⟨(start 0 0x1234 0 0 []).withFetchWord 16 0x712F, _, rfl, by decide⟩
theorem witness_OnlyTakenBranchOrJumpLeavesSequence_branch :
    ∃ s t : State, step s = .next t ∧ t.pc.toNat ≠ (s.pc.toNat + 2) % 65536 :=
  ⟨(start 7 7 0 4 []).withFetchWord 16 0x8123, _, rfl, by decide⟩
theorem witness_OnlyTakenBranchOrJumpLeavesSequence_jump :
    ∃ s t : State, step s = .next t ∧ t.pc.toNat ≠ (s.pc.toNat + 2) % 65536 :=
  ⟨(start 0 0 0 0xFFFE []).withFetchWord 16 0x9002, _, rfl, by decide⟩
theorem witness_HighPcBitsNeverAffectRuns : (start 7 8 0 0x0004 []).SameButHighPc (start 7 8 0 0xFFE4 []) :=
  ⟨rfl, by decide, rfl, rfl, rfl⟩
theorem witness_LaunchPlacesProgramFromByteZero :
    let init : Init := { program := List.replicate 15 0x5111 ++ [0x800F] }
    init.program.length ≤ 16 ∧ init.program[0]? = some 0x5111 ∧ init.program[15]? = some 0x800F := by decide

end Sys2Proof.Tests
end

section
/-! The signals every state settles to, what a register holds after a clock level, and the statement O35. -/

namespace Sys2Proof.Machine

/-! ## Every state settles (40_blocks.md R79, R81) -/

/-- The ALU has a result for each of its five defined codes (R79). -/
theorem alu_eq_some_of_le_four (a b : Word) {op : BitVec 3} (h : op.toNat ≤ 4) : ∃ r, alu a b op = some r := by
  unfold alu
  split
  case h_6 h0 h1 h2 h3 h4 =>
    have : op ≠ 0#3 ∧ op ≠ 1#3 ∧ op ≠ 2#3 ∧ op ≠ 3#3 ∧ op ≠ 4#3 := ⟨h0, h1, h2, h3, h4⟩
    bv_omega
  all_goals exact ⟨_, rfl⟩

/-- No row of the control table, the default row included, emits an undefined ALU code (R81, R83). -/
theorem controlTable_aluOp_le_four (opcode : BitVec 4) : (controlTable opcode).aluOp.toNat ≤ 4 := by
  unfold controlTable
  split <;> decide

/-- Of the two cases of `settle_cases` only the first occurs: the signals are `settleWith` of the ALU's result. -/
theorem settle_eq_ok (s : State) :
    ∃ r, settle s = .ok (settleWith s s.fetchWord (controlTable (opcodeField s.fetchWord)) (s.readReg (rsField s.fetchWord))
      (s.readReg (rtField s.fetchWord)) (imm16 (rdField s.fetchWord))
      (aluSrcMux (controlTable (opcodeField s.fetchWord)).aluSrc (s.readReg (rtField s.fetchWord))
        (imm16 (rdField s.fetchWord))) r) := by
  obtain ⟨r, hr⟩ := alu_eq_some_of_le_four (s.readReg (rsField s.fetchWord))
    (aluSrcMux (controlTable (opcodeField s.fetchWord)).aluSrc (s.readReg (rtField s.fetchWord)) (imm16 (rdField s.fetchWord)))
    (controlTable_aluOp_le_four (opcodeField s.fetchWord))
  exact ⟨r, by simp [settle, hr]⟩

/-- Every state settles, and its two read values are the stored ones of the fields `rs` and `rt` (10_state.md R15). -/
theorem settle_ok_reads (s : State) :
    ∃ g, settle s = .ok g ∧ g.read1 = s.readReg g.rs ∧ g.read2 = s.readReg g.rt := by
  obtain ⟨r, hr⟩ := settle_eq_ok s
  exact ⟨_, hr, rfl, rfl⟩

/-! ## A clock level (40_blocks.md R70 to R72) -/

/-- A clock level latches the settled signals. -/
theorem clockLevel_of_settle {s : State} {g : Signals} (h : settle s = .ok g) (level : Bool) :
    clockLevel level s = .next (latch level s g) := by
  simp [clockLevel, h]

/-- A tracker fires at a high level after a low one (R71). -/
theorem Tracker.fires_iff (t : Tracker) (level : Bool) : t.fires level = true ↔ t.current = false ∧ level = true := by
  rw [Tracker.fires_eq, Bool.and_eq_true, Bool.not_eq_true', and_comm]

/-- One register's latch takes `wb_data` under the three conditions of 10_state.md R14. -/
theorem latchReg_eq (fires : Bool) (g : Signals) (r : RegNum) (old : Word) :
    latchReg fires g r.toNat old = if fires = true ∧ g.control.regWrite = true ∧ g.dst = r then g.wbData else old := by
  simp only [latchReg, Bool.and_eq_true, beq_iff_eq, BitVec.toNat_inj]

/-- Register `r` after a level is its own latch, driven by its own tracker and its own old value (R72). -/
theorem State.readReg_latch (level : Bool) (s : State) (g : Signals) (r : RegNum) :
    (latch level s g).readReg r = latchReg ((s.clocks.regs.get r.toFin).fires level) g r.toNat (s.readReg r) := by
  simp only [State.readReg, latch, Vector.getElem_ofFn]
  rfl

/-- Settles O35: the latch of register `r` under the settled signals, with its tracker's edge spelled out. -/
theorem registerWriteNeedsItsOwnEdge : Obligations.RegisterWriteNeedsItsOwnEdge := by
  intro level s
  obtain ⟨g, hg, h1, h2⟩ := settle_ok_reads s
  refine ⟨g, latch level s g, hg, clockLevel_of_settle hg level, h1, h2, fun r => ?_⟩
  simp only [State.readReg_latch, latchReg_eq, Tracker.fires_iff, and_assoc]

end Sys2Proof.Machine
end

section
/-! What a word read gives byte by byte, that addresses equal modulo the size are one address to a memory unit, that no
instruction stops, and the statements O31 and O32 (spec/20_memory.md R31, R32). -/

namespace Sys2Proof.Machine

/-! ## Word reads, byte by byte (R32) -/

@[simp] theorem hiByte_append (hi lo : Byte) : hiByte (hi ++ lo) = hi := BitVec.extractLsb'_append_eq_left

@[simp] theorem loByte_append (hi lo : Byte) : loByte (hi ++ lo) = lo := BitVec.extractLsb'_append_eq_right

@[simp] theorem Memory.hiByte_readWord (size : Nat) (m : Memory) (a : Word) :
    hiByte (m.readWord size a) = m.readByte (cellIndex size a) := hiByte_append _ _

@[simp] theorem Memory.loByte_readWord (size : Nat) (m : Memory) (a : Word) :
    loByte (m.readWord size a) = m.readByte (nextCellIndex size a) := loByte_append _ _

/-- In every settled cycle the instruction memory is read at `pc` and the data memory at the ALU result, whatever the
instruction (R32; 40_blocks.md R86, R87). -/
theorem settle_ok_memoryReads (s : State) :
    ∃ g, settle s = .ok g ∧ g.instr = s.fetchWord ∧ g.memRdata = s.loadWord g.aluResult := by
  obtain ⟨r, hr⟩ := settle_eq_ok s
  exact ⟨_, hr, rfl, rfl⟩

/-- Settles O31: a word read is an append of two cells, of which each byte field gives one back. -/
theorem wordReadIsTwoCellsHighByteFirst : Obligations.WordReadIsTwoCellsHighByteFirst := fun s a =>
  ⟨Memory.hiByte_readWord Config.dmemBytes s.dmem a, Memory.loByte_readWord Config.dmemBytes s.dmem a,
    Memory.hiByte_readWord Config.imemBytes s.imem s.pc, Memory.loByte_readWord Config.imemBytes s.imem s.pc,
    settle_ok_memoryReads s⟩

/-! ## Addresses modulo the size (R31) -/

section SameCell

variable {size : Nat} {a b : Word}

/-- Addresses of one cell have one next cell: the reduction comes after the increment. -/
theorem nextCellIndex_congr (h : cellIndex size a = cellIndex size b) : nextCellIndex size a = nextCellIndex size b :=
  Nat.ModEq.add_right 1 h

theorem Memory.readWord_congr (m : Memory) (h : cellIndex size a = cellIndex size b) :
    m.readWord size a = m.readWord size b := by
  rw [Memory.readWord, Memory.readWord, h, nextCellIndex_congr h]

theorem Memory.writeWord_congr (m : Memory) (v : Word) (h : cellIndex size a = cellIndex size b) :
    m.writeWord size a v = m.writeWord size b v := by
  rw [Memory.writeWord, Memory.writeWord, h, nextCellIndex_congr h]

end SameCell

/-- `storeWord` on addresses that name the same data cell stores the same word in the same place. -/
theorem State.storeWord_congr (s : State) (v : Word) {a b : Word}
    (h : cellIndex Config.dmemBytes a = cellIndex Config.dmemBytes b) : s.storeWord a v = s.storeWord b v := by
  rw [State.storeWord, State.storeWord, Memory.writeWord_congr s.dmem v h]

/-! ## Nothing stops (R31; 60_exceptions.md R150) -/

theorem exec_eq_next (i : Instr) (s : State) : ∃ t, exec i s = .next t := by
  obtain ⟨t, ht, -⟩ := exec_cases i s
  exact ⟨t, ht⟩

theorem step_eq_next (s : State) : ∃ t, step s = .next t := by
  obtain ⟨t, ht⟩ := exec_eq_next s.fetchInstr s
  exact ⟨t.tickClocks, step_of_exec ht⟩

/-- Settles O32: each access depends on its address through `cellIndex` alone, and `exec` and `step` always answer a next
state. -/
theorem addressesAliasModuloSize : Obligations.AddressesAliasModuloSize := by
  refine ⟨fun a => ⟨rfl, rfl⟩, fun s a b v h => ⟨?load, ?store, ?fetch⟩, fun s a rt rs imm4 => ⟨?lw, ?sw, ?step⟩⟩
  case load => exact s.dmem.readWord_congr h
  case store => exact s.storeWord_congr v h
  case fetch => exact s.imem.readWord_congr h
  case lw => exact exec_eq_next _ _
  case sw => exact exec_eq_next _ _
  case step => exact step_eq_next _

end Sys2Proof.Machine
end

section
/-! The immediate field sign-extended, the opcodes that give it to the ALU, and the statement O27 (spec/30_encoding.md R52). -/

namespace Sys2Proof.Machine

/-! ## The immediate by value and by bit (R52) -/

@[simp] theorem imm16_toInt (k : Imm4) : (imm16 k).toInt = k.toInt :=
  BitVec.toInt_signExtend_of_le (by decide)

/-- A 4-bit field has a signed value from -8 to 7. -/
theorem imm4_toInt_bounds (k : Imm4) : -8 ≤ k.toInt ∧ k.toInt ≤ 7 :=
  ⟨BitVec.le_toInt k, Int.le_of_lt_add_one (BitVec.toInt_lt (x := k))⟩

theorem imm16_getLsbD (k : Imm4) {i : Nat} (hi : i < 16) :
    (imm16 k).getLsbD i = if i < 4 then k.getLsbD i else k.getLsbD 3 := by
  rw [imm16, BitVec.getLsbD_signExtend, BitVec.msb_eq_getLsbD_last, decide_eq_true hi, Bool.true_and]

/-! ## The opcodes with an immediate operand (40_blocks.md R81, R94) -/

theorem opcodeField_toNat (w : Word) : (opcodeField w).toNat = w.toNat / 4096 := by
  have := w.isLt
  simp only [opcodeField, BitVec.extractLsb'_toNat, Nat.shiftRight_eq_div_pow]
  omega

/-- The control table sets `alu_src` in the rows of ADDI, LW and SW and in no other (R81). -/
theorem controlTable_aluSrc_iff (opcode : BitVec 4) :
    (controlTable opcode).aluSrc = true ↔ 5 ≤ opcode.toNat ∧ opcode.toNat ≤ 7 := by
  revert opcode
  decide

@[simp] theorem aluSrcMux_true (read2 imm : Word) : aluSrcMux true read2 imm = imm := rfl

/-- For opcodes 5 to 7 the multiplexer gives operand b the immediate (R94). -/
theorem aluSrcMux_of_immediate_opcode {w : Word} (h5 : 5 ≤ w.toNat / 4096) (h7 : w.toNat / 4096 ≤ 7) (read2 imm : Word) :
    aluSrcMux (controlTable (opcodeField w)).aluSrc read2 imm = imm := by
  rw [← opcodeField_toNat] at h5 h7
  rw [(controlTable_aluSrc_iff _).mpr ⟨h5, h7⟩, aluSrcMux_true]

/-- Settles O27: the immediate's value and bits are those of `imm16`, and among the settled signals the operand b of opcodes
5 to 7 is what the multiplexer passes when `alu_src` is set. -/
theorem immediateIsSignExtended : Obligations.ImmediateIsSignExtended := by
  refine ⟨fun k => ?field, fun s => ?settled⟩
  case field =>
    obtain ⟨hlo, hhi⟩ := imm4_toInt_bounds k
    exact ⟨imm16_toInt k, hlo, hhi, fun _ hi => imm16_getLsbD k hi⟩
  case settled =>
    obtain ⟨r, hr⟩ := settle_eq_ok s
    exact ⟨_, hr, rfl, rfl, fun h5 h7 => aluSrcMux_of_immediate_opcode h5 h7 _ _⟩

end Sys2Proof.Machine
end

section
/-! The wiring of the settled signals, the ALU's bitwise codes, the program counter's latch, and the statements O25, O20 and
O37 (spec/40_blocks.md R76, R77, R88, R92, R94, R95). -/

namespace Sys2Proof.Machine

/-! ## The multiplexers in the settled signals (R92, R94, R95) -/

theorem dstMux_eq_ite (regDst : Bool) (rt rd : RegNum) : dstMux regDst rt rd = if regDst = true then rd else rt := rfl

theorem aluSrcMux_eq_ite (aluSrc : Bool) (read2 imm : Word) :
    aluSrcMux aluSrc read2 imm = if aluSrc = true then imm else read2 := rfl

theorem writeBackMux_eq_ite (memToReg : Bool) (aluResult memRdata : Word) :
    writeBackMux memToReg aluResult memRdata = if memToReg = true then memRdata else aluResult := rfl

/-- Inversion of a settled cycle: the ALU's result is of the nets at its inputs, operand b is the ALU-source multiplexer's, and
all nets after the ALU are `settleWith` of the nets before it. -/
theorem signals_of_settle {s : State} {g : Signals} (h : settle s = .ok g) :
    alu g.read1 g.aluB g.control.aluOp = some g.aluResult ∧ g.aluB = aluSrcMux g.control.aluSrc g.read2 g.imm16 ∧
      g = settleWith s g.instr g.control g.read1 g.read2 g.imm16 g.aluB g.aluResult := by
  obtain ⟨r, halu, hok⟩ | herr := settle_cases s
  · cases h.symm.trans hok
    exact ⟨halu, rfl, rfl⟩
  · cases h.symm.trans herr

section Settled

variable {s : State} {g : Signals} (h : settle s = .ok g)
include h

theorem dst_of_settle : g.dst = dstMux g.control.regDst g.rt g.rd := by
  obtain ⟨-, -, hg⟩ := signals_of_settle h
  rw [hg]; rfl

theorem memRdata_of_settle : g.memRdata = s.loadWord g.aluResult := by
  obtain ⟨-, -, hg⟩ := signals_of_settle h
  rw [hg]; rfl

theorem wbData_of_settle : g.wbData = writeBackMux g.control.memToReg g.aluResult g.memRdata := by
  obtain ⟨-, -, hg⟩ := signals_of_settle h
  rw [hg]; rfl

end Settled

/-- Settles O25: each selected net is its multiplexer's output, and the ALU and the memory read are those of the settled
nets. -/
theorem multiplexersSelectByControl : Obligations.MultiplexersSelectByControl := by
  intro s
  obtain ⟨g, hg, hread1, hread2⟩ := settle_ok_reads s
  obtain ⟨halu, haluB, -⟩ := signals_of_settle hg
  exact ⟨g, hg, (dst_of_settle hg).trans (dstMux_eq_ite ..), haluB.trans (aluSrcMux_eq_ite ..),
    (wbData_of_settle hg).trans (writeBackMux_eq_ite ..), hread1, hread2, memRdata_of_settle hg, halu⟩

/-! ## The bitwise codes of the ALU (R76, R77) -/

theorem alu_code_and (a b : Word) : alu a b 0b010#3 = some (aluAnd a b) := rfl

theorem alu_code_or (a b : Word) : alu a b 0b011#3 = some (aluOr a b) := rfl

@[simp] theorem aluAnd_getLsbD (a b : Word) (i : Nat) : (aluAnd a b).getLsbD i = (a.getLsbD i && b.getLsbD i) :=
  BitVec.getLsbD_and

@[simp] theorem aluOr_getLsbD (a b : Word) (i : Nat) : (aluOr a b).getLsbD i = (a.getLsbD i || b.getLsbD i) :=
  BitVec.getLsbD_or

/-- Settles O20: the two codes select `aluAnd` and `aluOr`, whose bits are the conjunction and the disjunction. -/
theorem aluAndOrActOnEachBit : Obligations.AluAndOrActOnEachBit := fun a b =>
  ⟨⟨aluAnd a b, alu_code_and a b, fun i _ => aluAnd_getLsbD a b i⟩,
    ⟨aluOr a b, alu_code_or a b, fun i _ => aluOr_getLsbD a b i⟩⟩

/-! ## The program counter's latch (R88; 10_state.md R17) -/

/-- The program counter after a level depends on its own tracker alone: `next_pc` at its rising edge, else its old value. -/
theorem pc_latch (level : Bool) (s : State) (g : Signals) :
    (latch level s g).pc = if s.clocks.pc.current = false ∧ level = true then g.nextPc else s.pc := by
  simp only [latch, Tracker.fires_iff]

/-- Settles O37: every state settles, and a level latches the settled `next_pc`. -/
theorem pcLoadsAtEveryRisingEdge : Obligations.PcLoadsAtEveryRisingEdge := by
  intro level s
  obtain ⟨r, hr⟩ := settle_eq_ok s
  exact ⟨_, _, hr, clockLevel_of_settle hr level, pc_latch level s _⟩

end Sys2Proof.Machine
end

section
/-! What the register-register form does and leaves unchanged, the fields of its words, and the statements O8, O10 and O11
(spec/41_alu_register.md R110, R112, R113). -/

namespace Sys2Proof

/-! ## The fields of a register-form word (spec/30_encoding.md R50)

Each field is reached by dropping, one append at a time, the fields to its right. -/

section RegisterFields

variable (op rs rt rd : BitVec 4)

@[simp] theorem rdField_registerForm : rdField (op ++ rs ++ rt ++ rd) = rd := BitVec.extractLsb'_append_eq_right

@[simp] theorem rtField_registerForm : rtField (op ++ rs ++ rt ++ rd) = rt :=
  (BitVec.extractLsb'_append_eq_of_le (by decide)).trans BitVec.extractLsb'_append_eq_right

@[simp] theorem rsField_registerForm : rsField (op ++ rs ++ rt ++ rd) = rs :=
  (BitVec.extractLsb'_append_eq_of_le (by decide)).trans <|
    (BitVec.extractLsb'_append_eq_of_le (by decide)).trans BitVec.extractLsb'_append_eq_right

@[simp] theorem opcodeField_registerForm : opcodeField (op ++ rs ++ rt ++ rd) = op :=
  (BitVec.extractLsb'_append_eq_of_le (by decide)).trans <|
    (BitVec.extractLsb'_append_eq_of_le (by decide)).trans BitVec.extractLsb'_append_eq_left

end RegisterFields

/-! ## The opcodes of ADD, AND and OR (R55) -/

theorem decodeWord_add (rd rs rt : RegNum) : decodeWord (0b0000#4 ++ rs ++ rt ++ rd) = .add rd rs rt := by
  simp [decodeWord]

theorem decodeWord_and (rd rs rt : RegNum) : decodeWord (0b0010#4 ++ rs ++ rt ++ rd) = .and rd rs rt := by
  simp [decodeWord]

theorem decodeWord_or (rd rs rt : RegNum) : decodeWord (0b0011#4 ++ rs ++ rt ++ rd) = .or rd rs rt := by
  simp [decodeWord]

end Sys2Proof

namespace Sys2Proof.Machine

/-! ## Result and frame of the register form (10_state.md R14, R17) -/

/-- The rising edge of an instruction that writes one register and continues in sequence: `v` in `x[rd]`, the program counter
advanced, nothing else changed. -/
theorem advance_writeReg_spec (s : State) (rd : RegNum) (v : Word) :
    (s.writeReg rd v).advance.readReg rd = v ∧ SameRegsBut rd s (s.writeReg rd v).advance ∧
      PcAdvances s (s.writeReg rd v).advance ∧ SameData s (s.writeReg rd v).advance ∧
      SameRest s (s.writeReg rd v).advance := by
  refine ⟨?result, fun q hq => ?frame, ?pc, fun _ => rfl, fun _ => rfl, rfl⟩
  case result => rw [State.advance_readReg, State.readReg_writeReg_self]
  case frame => rw [State.advance_readReg, State.readReg_writeReg, if_neg hq]
  case pc => exact pcPlus2_toNat s.pc

/-- What the register form does: it completes with `f` of the stored sources in `x[rd]`, whichever of the three registers are
the same, and changes nothing else but the program counter. -/
theorem registerOp_spec (f : Word → Word → Word) (rd rs rt : RegNum) (s : State) :
    ∃ t, registerOp f rd rs rt s = .next t ∧ t.readReg rd = f (s.readReg rs) (s.readReg rt) ∧
      SameRegsBut rd s t ∧ PcAdvances s t ∧ SameData s t ∧ SameRest s t :=
  ⟨_, rfl, advance_writeReg_spec s rd _⟩

/-! ## The sum, read as unsigned and as signed (40_blocks.md R74) -/

@[simp] theorem aluAdd_toNat (a b : Word) : (aluAdd a b).toNat = (a.toNat + b.toNat) % 65536 := BitVec.toNat_ofNat _ _

/-- The low 16 bits of the sum do not depend on whether the operands are read as signed. -/
theorem aluAdd_eq_ofInt (a b : Word) : aluAdd a b = BitVec.ofInt 16 (a.toInt + b.toInt) := by
  rw [aluAdd_eq, BitVec.ofInt_add, BitVec.ofInt_toInt, BitVec.ofInt_toInt]

/-! ## The statements -/

/-- Settles O8: `registerOp` of `aluAdd`, whose result is the sum modulo 65536 under either reading of the operands. -/
theorem addWritesSumModulo : Obligations.AddWritesSumModulo := by
  intro rd rs rt s
  obtain ⟨t, hexec, hresult, hframe⟩ := registerOp_spec aluAdd rd rs rt s
  refine ⟨decodeWord_add rd rs rt, rfl, rfl, t, hexec, ?unsigned, ?signed, hframe⟩
  case unsigned => rw [hresult, aluAdd_toNat]
  case signed => rw [hresult, aluAdd_eq_ofInt]

/-- Settles O10: `registerOp` of `aluAnd`, read bit by bit. -/
theorem andWritesBitwiseConjunction : Obligations.AndWritesBitwiseConjunction := by
  intro rd rs rt s
  obtain ⟨t, hexec, hresult, hframe⟩ := registerOp_spec aluAnd rd rs rt s
  refine ⟨decodeWord_and rd rs rt, rfl, rfl, t, hexec, fun i _ => ?bit, hframe⟩
  case bit => rw [hresult, aluAnd_getLsbD]

/-- Settles O11: `registerOp` of `aluOr`, read bit by bit. -/
theorem orWritesBitwiseDisjunction : Obligations.OrWritesBitwiseDisjunction := by
  intro rd rs rt s
  obtain ⟨t, hexec, hresult, hframe⟩ := registerOp_spec aluOr rd rs rt s
  refine ⟨decodeWord_or rd rs rt, rfl, rfl, t, hexec, fun i _ => ?bit, hframe⟩
  case bit => rw [hresult, aluOr_getLsbD]

end Sys2Proof.Machine
end

section
/-! What ADDI does and leaves unchanged, and the statement O13 (spec/42_immediate.md R120). -/

namespace Sys2Proof

/-- The immediate form has the register form's layout, with the immediate in the place of `rd` (R50, R55). -/
theorem decodeWord_addi (rt rs : RegNum) (imm4 : Imm4) :
    decodeWord (0b0101#4 ++ rs ++ rt ++ imm4) = .addi rt rs imm4 := by
  simp [decodeWord]

end Sys2Proof

namespace Sys2Proof.Machine

/-! ## The sum with a signed second operand (30_encoding.md R52; 40_blocks.md R74) -/

/-- The ALU adds unsigned values; reading operand b as signed changes it by 0 or by 65536, which the reduction drops. -/
theorem aluAdd_toNat_signed_right (a b : Word) : ((aluAdd a b).toNat : Int) = (a.toNat + b.toInt) % 65536 := by
  rw [aluAdd_toNat, BitVec.toInt_eq_toNat_cond]
  split
  case isTrue => rfl
  case isFalse => omega

theorem aluAdd_imm16_toNat (a : Word) (imm4 : Imm4) :
    ((aluAdd a (imm16 imm4)).toNat : Int) = (a.toNat + imm4.toInt) % 65536 := by
  rw [aluAdd_toNat_signed_right, imm16_toInt]

/-! ## Result and frame of ADDI (R120) -/

/-- ADDI completes with the ALU's sum of the stored `x[rs]` and the extended immediate in `x[rt]`, `rt` being `rs` or not, and
changes nothing else but the program counter. -/
theorem exec_addi_spec (rt rs : RegNum) (imm4 : Imm4) (s : State) :
    ∃ t, exec (.addi rt rs imm4) s = .next t ∧ t.readReg rt = aluAdd (s.readReg rs) (imm16 imm4) ∧
      SameRegsBut rt s t ∧ PcAdvances s t ∧ SameData s t ∧ SameRest s t :=
  ⟨_, rfl, advance_writeReg_spec s rt _⟩

/-- Settles O13: the register written holds the ALU's sum, whose second operand `imm16` has the immediate's signed value. -/
theorem addiAddsSignedImmediate : Obligations.AddiAddsSignedImmediate := by
  intro rt rs imm4 s
  obtain ⟨t, hexec, hresult, hframe⟩ := exec_addi_spec rt rs imm4 s
  refine ⟨decodeWord_addi rt rs imm4, rfl, rfl, t, hexec, ?sum, hframe⟩
  case sum => rw [hresult, aluAdd_imm16_toNat]

end Sys2Proof.Machine
end

section
/-! The address an LW or SW presents, the word a load gives at any address, what LW does and leaves unchanged, and the
statement O14 (spec/43_load_store.md R125, R127). -/

namespace Sys2Proof

theorem decodeWord_lw (rt rs : RegNum) (imm4 : Imm4) :
    decodeWord (0b0110#4 ++ rs ++ rt ++ imm4) = .lw rt rs imm4 := by
  simp [decodeWord]

end Sys2Proof

namespace Sys2Proof.Machine

/-! ## The effective address (R127) -/

/-- The effective address is the ALU's sum, the one ADDI writes to its register (40_blocks.md R74). -/
theorem effectiveAddress_eq_aluAdd (base : Word) (imm4 : Imm4) :
    effectiveAddress base imm4 = aluAdd base (imm16 imm4) :=
  (aluAdd_eq base (imm16 imm4)).symm

/-- Base plus signed displacement in bytes, wrapped modulo 65536. -/
theorem dataAddress_toNat (rs : RegNum) (imm4 : Imm4) (s : State) :
    ((dataAddress rs imm4 s).toNat : Int) = ((s.readReg rs).toNat + imm4.toInt) % 65536 := by
  rw [dataAddress, effectiveAddress_eq_aluAdd, aluAdd_imm16_toNat]

/-! ## The word at an address (20_memory.md R31, R32, R34) -/

/-- A load at any address, odd ones and the one of cell 31 included, is two neighbouring cells, high byte first. -/
theorem State.loadWord_eq_append (s : State) (a : Word) :
    s.loadWord a = s.dataByte (a.toNat % 32) ++ s.dataByte ((a.toNat + 1) % 32) := by
  rw [State.loadWord, Memory.readWord, cellIndex_dmem, nextCellIndex_dmem, State.dataByte, State.dataByte]

/-! ## Result and frame of LW (R125) -/

/-- LW completes with the loaded word in `x[rt]`, its address formed from the old `x[rs]` even when `rt` is `rs`, and changes
nothing else but the program counter. -/
theorem exec_lw_spec (rt rs : RegNum) (imm4 : Imm4) (s : State) :
    ∃ t, exec (.lw rt rs imm4) s = .next t ∧ t.readReg rt = s.loadWord (dataAddress rs imm4 s) ∧
      SameRegsBut rt s t ∧ PcAdvances s t ∧ SameData s t ∧ SameRest s t :=
  ⟨_, rfl, advance_writeReg_spec s rt _⟩

/-- Settles O14: the effective address is `dataAddress`, and the register written holds the two cells a load gives there. -/
theorem lwLoadsBigEndianWord : Obligations.LwLoadsBigEndianWord := by
  intro rt rs imm4 s
  obtain ⟨t, hexec, hresult, hframe⟩ := exec_lw_spec rt rs imm4 s
  refine ⟨decodeWord_lw rt rs imm4, rfl, rfl, _, dataAddress_toNat rs imm4 s, t, hexec, ?word, hframe⟩
  case word => rw [hresult, State.loadWord_eq_append]

end Sys2Proof.Machine
end

section
/-! Elements whose trackers do not fire keep their value, the settled signals do not depend on the trackers, and the statement
O38 (spec/70_reset_and_hazards.md R182). -/

namespace Sys2Proof.Machine

/-! ## Elements at a level that is no rising edge (40_blocks.md R71, R72) -/

theorem Tracker.fires_eq_false_iff (t : Tracker) (level : Bool) :
    t.fires level = false ↔ ¬ (t.current = false ∧ level = true) := by
  rw [← Tracker.fires_iff, Bool.not_eq_true]

@[simp] theorem latchReg_false (g : Signals) (i : Nat) (old : Word) : latchReg false g i old = old := rfl

/-- A memory unit is as it was, the very same list, when each of its cells lacks the edge or the write enable. -/
theorem Memory.latchCells_eq_self {size : Nat} {fires : Nat → Bool} {wen : Bool} (addr wdata : Word) (m : Memory)
    (h : ∀ i, (fires i && wen) = false) (n : Nat) : m.latchCells size fires wen addr wdata n = m := by
  induction n with
  | zero => rfl
  | succ n ih => simp only [Memory.latchCells, h n, Bool.false_eq_true, if_false, ih]

theorem cellFires_eq_false {size : Nat} {ts : Vector Tracker size} {level : Bool}
    (h : ∀ i, (ts.get i).fires level = false) (i : Nat) : cellFires ts level i = false := by
  unfold cellFires
  split
  case isTrue hi => exact h ⟨i, hi⟩
  case isFalse => rfl

/-! ## The whole core at such a level (R182) -/

@[simp] theorem latch_clocks (level : Bool) (s : State) (g : Signals) :
    (latch level s g).clocks = s.clocks.onClock level := rfl

theorem State.LockStep_latch {s : State} {tr : Tracker} (hs : s.LockStep tr) (level : Bool) (g : Signals) :
    (latch level s g).LockStep (tr.onClock level) := by
  rw [State.LockStep, latch_clocks, hs, Trackers.onClock_all]

section NoRisingEdge

variable {s : State} {tr : Tracker} {level : Bool} (hs : s.LockStep tr) (hquiet : tr.fires level = false) (g : Signals)
include hs hquiet

theorem readReg_latch_of_no_edge (r : RegNum) : (latch level s g).readReg r = s.readReg r := by
  rw [State.readReg_latch, hs, Trackers.all_regs_get, hquiet, latchReg_false]

theorem pc_latch_of_no_edge : (latch level s g).pc = s.pc := by
  rw [pc_latch, hs, Trackers.all_pc, if_neg ((Tracker.fires_eq_false_iff tr level).mp hquiet)]

theorem dmem_latch_of_no_edge : (latch level s g).dmem = s.dmem := by
  have hcell (i : Nat) : cellFires s.clocks.dmem level i = false :=
    cellFires_eq_false (fun j => by rw [hs, Trackers.all_dmem_get, hquiet]) i
  exact Memory.latchCells_eq_self _ _ _ (fun i => by rw [hcell, Bool.false_and]) _

end NoRisingEdge

/-- The instruction memory's write enable is constant 0, so it keeps its cells at every level, a rising edge included
(40_blocks.md R86; D13, log 10). -/
@[simp] theorem latch_imem (level : Bool) (s : State) (g : Signals) : (latch level s g).imem = s.imem :=
  Memory.latchCells_eq_self _ _ _ (fun _ => Bool.and_false _) _

theorem SameArchitecture_latch_of_no_edge {s : State} {tr : Tracker} {level : Bool} (hs : s.LockStep tr)
    (hquiet : tr.fires level = false) (g : Signals) : (latch level s g).SameArchitecture s :=
  ⟨State.regs_ext (readReg_latch_of_no_edge hs hquiet g), pc_latch_of_no_edge hs hquiet g, latch_imem level s g,
    dmem_latch_of_no_edge hs hquiet g⟩

/-- The combinational signals are a function of the architectural parts alone: no block reads a tracker (40_blocks.md R98). -/
theorem settle_congr {s t : State} (h : s.SameArchitecture t) : settle s = settle t := by
  obtain ⟨regs, pc, imem, dmem, clocks⟩ := s
  obtain ⟨hregs, hpc, himem, hdmem⟩ := h
  subst hregs hpc himem hdmem
  rfl

/-- Settles O38: at a level at which the common tracker does not fire, every latch keeps its element's old value. -/
theorem levelsWithoutRisingEdgeHoldState : Obligations.LevelsWithoutRisingEdgeHoldState := by
  intro s tr level hs hedge
  have hquiet : tr.fires level = false := (Tracker.fires_eq_false_iff tr level).mpr hedge
  obtain ⟨r, hr⟩ := settle_eq_ok s
  have harch := SameArchitecture_latch_of_no_edge hs hquiet
  exact ⟨_, clockLevel_of_settle hr level, harch _, State.LockStep_latch hs level _, settle_congr (harch _)⟩

end Sys2Proof.Machine
end

section
/-! Words taken apart into fields and put together again, the decoder as the inverse of the encoder, the opcode rows, the
assembly forms, and the statements O1 to O5 (spec/30_encoding.md). -/

namespace Sys2Proof

/-! ## Fields of a word (R50) -/

@[simp] theorem opcodeField_append (op : BitVec 4) (f : BitVec 12) : opcodeField (op ++ f) = op :=
  BitVec.extractLsb'_append_eq_left

@[simp] theorem field12_append (op : BitVec 4) (f : BitVec 12) : field12 (op ++ f) = f :=
  BitVec.extractLsb'_append_eq_right

/-- A word is its opcode before its low twelve bits. -/
theorem opcodeField_append_field12 (w : Word) : opcodeField w ++ field12 w = w :=
  (BitVec.extractLsb'_append_extractLsb'_eq_extractLsb' rfl).trans BitVec.extractLsb'_eq_self

/-- A word is its four 4-bit fields in order. -/
theorem fields_append (w : Word) : opcodeField w ++ rsField w ++ rtField w ++ rdField w = w := by
  have hrs : opcodeField w ++ rsField w = w.extractLsb' 8 8 := BitVec.extractLsb'_append_extractLsb'_eq_extractLsb' rfl
  have hrt : w.extractLsb' 8 8 ++ rtField w = w.extractLsb' 4 12 := BitVec.extractLsb'_append_extractLsb'_eq_extractLsb' rfl
  have hrd : w.extractLsb' 4 12 ++ rdField w = w.extractLsb' 0 16 := BitVec.extractLsb'_append_extractLsb'_eq_extractLsb' rfl
  rw [hrs, hrt, hrd, BitVec.extractLsb'_eq_self]

/-! ## Decoding the words of the other rows (R55) -/

theorem decodeWord_sub (rd rs rt : RegNum) : decodeWord (0b0001#4 ++ rs ++ rt ++ rd) = .sub rd rs rt := by
  simp [decodeWord]

theorem decodeWord_slt (rd rs rt : RegNum) : decodeWord (0b0100#4 ++ rs ++ rt ++ rd) = .slt rd rs rt := by
  simp [decodeWord]

theorem decodeWord_sw (rt rs : RegNum) (imm4 : Imm4) :
    decodeWord (0b0111#4 ++ rs ++ rt ++ imm4) = .sw rt rs imm4 := by
  simp [decodeWord]

theorem decodeWord_beq (rs rt : RegNum) (imm4 : Imm4) :
    decodeWord (0b1000#4 ++ rs ++ rt ++ imm4) = .beq rs rt imm4 := by
  simp [decodeWord]

theorem decodeWord_jump (field : BitVec 12) : decodeWord (0b1001#4 ++ field) = .jump field := by
  simp [decodeWord]

/-- The six opcodes above the JUMP's: 1010 and 1011 are one row, 1100 to 1111 the other. -/
theorem decodeWord_reserved {opcode : BitVec 4} (h : 10 ≤ opcode.toNat) (ignored : BitVec 12) :
    decodeWord (opcode ++ ignored) =
      if opcode.toNat < 12 then .rsvd101x opcode ignored else .rsvd11xx opcode ignored := by
  obtain ⟨⟨n, hn⟩⟩ := opcode
  have hlo : 10 ≤ n := h
  interval_cases n <;> simp [decodeWord]

/-! ## Well-formed reserved rows -/

theorem wellFormed_rsvd101x_iff (opcode : BitVec 4) (ignored : BitVec 12) :
    (Instr.rsvd101x opcode ignored).wellFormed = true ↔ 10 ≤ opcode.toNat ∧ opcode.toNat < 12 := by
  change (opcode.extractLsb' 1 3 == 0b101#3) = true ↔ _
  revert opcode; decide

theorem wellFormed_rsvd11xx_iff (opcode : BitVec 4) (ignored : BitVec 12) :
    (Instr.rsvd11xx opcode ignored).wellFormed = true ↔ 12 ≤ opcode.toNat := by
  change (opcode.extractLsb' 2 2 == 0b11#2) = true ↔ _
  revert opcode; decide

/-! ## Decoder and encoder are inverse (R55 to R57) -/

theorem decodeWord_encode {i : Instr} (h : i.wellFormed = true) : decodeWord (encode i) = i := by
  cases i with
  | add rd rs rt => exact decodeWord_add rd rs rt
  | sub rd rs rt => exact decodeWord_sub rd rs rt
  | and rd rs rt => exact decodeWord_and rd rs rt
  | or rd rs rt => exact decodeWord_or rd rs rt
  | slt rd rs rt => exact decodeWord_slt rd rs rt
  | addi rt rs imm4 => exact decodeWord_addi rt rs imm4
  | lw rt rs imm4 => exact decodeWord_lw rt rs imm4
  | sw rt rs imm4 => exact decodeWord_sw rt rs imm4
  | beq rs rt imm4 => exact decodeWord_beq rs rt imm4
  | jump field => exact decodeWord_jump field
  | rsvd101x opcode ignored =>
    obtain ⟨hlo, hhi⟩ := (wellFormed_rsvd101x_iff opcode ignored).mp h
    exact (decodeWord_reserved hlo ignored).trans (if_pos hhi)
  | rsvd11xx opcode ignored =>
    have hlo := (wellFormed_rsvd11xx_iff opcode ignored).mp h
    exact (decodeWord_reserved (by omega) ignored).trans (if_neg (by omega))

/-- Every word is the encoding of a well-formed instruction: its opcode says which row, its fields the operands. -/
theorem exists_wellFormed_encode_eq (w : Word) : ∃ i : Instr, i.wellFormed = true ∧ encode i = w := by
  have hfields := fields_append w
  have hsplit := opcodeField_append_field12 w
  generalize opcodeField w = opcode at hfields hsplit
  by_cases h10 : opcode.toNat < 10
  · obtain ⟨⟨n, hn⟩⟩ := opcode
    have hlt : n < 10 := h10
    interval_cases n
    · exact ⟨.add (rdField w) (rsField w) (rtField w), rfl, hfields⟩
    · exact ⟨.sub (rdField w) (rsField w) (rtField w), rfl, hfields⟩
    · exact ⟨.and (rdField w) (rsField w) (rtField w), rfl, hfields⟩
    · exact ⟨.or (rdField w) (rsField w) (rtField w), rfl, hfields⟩
    · exact ⟨.slt (rdField w) (rsField w) (rtField w), rfl, hfields⟩
    · exact ⟨.addi (rtField w) (rsField w) (rdField w), rfl, hfields⟩
    · exact ⟨.lw (rtField w) (rsField w) (rdField w), rfl, hfields⟩
    · exact ⟨.sw (rtField w) (rsField w) (rdField w), rfl, hfields⟩
    · exact ⟨.beq (rsField w) (rtField w) (rdField w), rfl, hfields⟩
    · exact ⟨.jump (field12 w), rfl, hsplit⟩
  · by_cases h12 : opcode.toNat < 12
    · exact ⟨.rsvd101x opcode (field12 w), (wellFormed_rsvd101x_iff _ _).mpr ⟨by omega, h12⟩, hsplit⟩
    · exact ⟨.rsvd11xx opcode (field12 w), (wellFormed_rsvd11xx_iff _ _).mpr (by omega), hsplit⟩

theorem wellFormed_decodeWord (w : Word) : (decodeWord w).wellFormed = true := by
  obtain ⟨i, hi, rfl⟩ := exists_wellFormed_encode_eq w
  rwa [decodeWord_encode hi]

theorem encode_decodeWord (w : Word) : encode (decodeWord w) = w := by
  obtain ⟨i, hi, rfl⟩ := exists_wellFormed_encode_eq w
  rw [decodeWord_encode hi]

/-- Settles O1: the two bytes put together are the encoder's word, which decodes to the instruction. -/
theorem decodeOfEncodeReturnsInstruction : Obligations.DecodeOfEncodeReturnsInstruction := by
  intro i rest hi
  change Except.ok (decodeWord (hiByte (encode i) ++ loByte (encode i)), rest) = Except.ok (i, rest)
  rw [Machine.hiByte_append_loByte, decodeWord_encode hi]

/-- Settles O2: every word is the encoding of a well-formed instruction, and that is the one it decodes to. -/
theorem encodeOfDecodeReturnsWord : Obligations.EncodeOfDecodeReturnsWord := fun w =>
  ⟨wellFormed_decodeWord w, encode_decodeWord w⟩

/-! ## The opcode rows (R55) -/

/-- A well-formed instruction's word lies in the row of its mnemonic. -/
theorem opcodeRow_of_wellFormed (i : Instr) : Laws.OpcodeRowMatches.Statement i := by
  cases i with
  | add rd rs rt => exact Laws.OpcodeRowMatches.add rd rs rt
  | sub rd rs rt => exact Laws.OpcodeRowMatches.sub rd rs rt
  | and rd rs rt => exact Laws.OpcodeRowMatches.and rd rs rt
  | or rd rs rt => exact Laws.OpcodeRowMatches.or rd rs rt
  | slt rd rs rt => exact Laws.OpcodeRowMatches.slt rd rs rt
  | addi rt rs imm4 => exact Laws.OpcodeRowMatches.addi rt rs imm4
  | lw rt rs imm4 => exact Laws.OpcodeRowMatches.lw rt rs imm4
  | sw rt rs imm4 => exact Laws.OpcodeRowMatches.sw rt rs imm4
  | beq rs rt imm4 => exact Laws.OpcodeRowMatches.beq rs rt imm4
  | jump field => exact Laws.OpcodeRowMatches.jump field
  | rsvd101x opcode ignored => exact Laws.OpcodeRowMatches.rsvd101x opcode ignored
  | rsvd11xx opcode ignored => exact Laws.OpcodeRowMatches.rsvd11xx opcode ignored

/-- The masks look at the opcode alone. -/
theorem opcodeTable_mask : ∀ r ∈ opcodeTable, opcodeField r.mask ++ 0#12 = r.mask := by decide

theorem matchesWord_eq_of_opcode {r : OpcodeRow} (hr : r ∈ opcodeTable) (w : Word) :
    r.matchesWord w = r.matchesWord (opcodeField w ++ 0#12) := by
  have hw : w &&& r.mask = (opcodeField w ++ 0#12) &&& r.mask := by
    calc w &&& r.mask
        = (opcodeField w ++ field12 w) &&& (opcodeField r.mask ++ 0#12) := by
          rw [opcodeField_append_field12, opcodeTable_mask r hr]
      _ = (opcodeField w ++ 0#12) &&& (opcodeField r.mask ++ 0#12) := by
          rw [Laws.OpcodeRowMatches.high_row, Laws.OpcodeRowMatches.high_row]
      _ = (opcodeField w ++ 0#12) &&& r.mask := by rw [opcodeTable_mask r hr]
  rw [OpcodeRow.matchesWord, hw, OpcodeRow.matchesWord]

/-- No opcode is in two rows. -/
theorem opcodeTable_rows_disjoint : ∀ opcode : BitVec 4, ∀ r ∈ opcodeTable, ∀ q ∈ opcodeTable,
    r.matchesWord (opcode ++ 0#12) = true → q.matchesWord (opcode ++ 0#12) = true → q = r := by decide

/-- Settles O3: the row of the decoded instruction's mnemonic matches, and since the rows look at the opcode alone and no
opcode is in two of them, no other row does. -/
theorem opcodeRowsPartitionWords : Obligations.OpcodeRowsPartitionWords := by
  intro w
  obtain ⟨r, hr, hname, hmatch⟩ := opcodeRow_of_wellFormed (decodeWord w) (wellFormed_decodeWord w)
  rw [encode_decodeWord] at hmatch
  refine ⟨r, hr, hmatch, hname, fun q hq hqw => ?_⟩
  rw [matchesWord_eq_of_opcode hr] at hmatch
  rw [matchesWord_eq_of_opcode hq] at hqw
  exact opcodeTable_rows_disjoint _ r hr q hq hmatch hqw

/-- Settles O4: the decoder evaluated on the twelve words. -/
theorem specExampleWordsDecode : Obligations.SpecExampleWordsDecode := by
  unfold Obligations.SpecExampleWordsDecode
  decide

/-! ## Assembly forms (R60; D16, log 18) -/

@[simp] theorem asmReg_toNat (r : RegNum) : asmReg r.toNat = some r := by
  simp [asmReg, r.isLt]

@[simp] theorem asmImm_toInt (k : Imm4) : asmImm k.toInt = some k := by
  rw [asmImm, if_pos (Machine.imm4_toInt_bounds k), BitVec.ofInt_toInt]

theorem asmThree_toNat (f : RegNum → RegNum → RegNum → Instr) (d s t : RegNum) :
    asmThree f d.toNat s.toNat t.toNat = some (f d s t) := by
  simp [asmThree]

theorem asmTwoImm_toNat (f : RegNum → RegNum → Imm4 → Instr) (a b : RegNum) (k : Imm4) :
    asmTwoImm f a.toNat b.toNat k.toInt = some (f a b k) := by
  simp [asmTwoImm]

theorem assemble_jump (field : BitVec 12) : assemble (.op "JUMP" [.field field.toNat]) = some (.jump field) := by
  simp [assemble, field.isLt]

theorem assemble_word (w : Word) : assemble (.word w.toNat) = some (decodeWord w) := by
  simp [assemble, w.isLt]

/-- Settles O5: each operand form reads back the field it writes, and a `.word` line is the encoding, decoded. -/
theorem assemblyFormStandsForInstruction : Obligations.AssemblyFormStandsForInstruction := by
  intro i hi
  cases i with
  | add rd rs rt => exact asmThree_toNat .add rd rs rt
  | sub rd rs rt => exact asmThree_toNat .sub rd rs rt
  | and rd rs rt => exact asmThree_toNat .and rd rs rt
  | or rd rs rt => exact asmThree_toNat .or rd rs rt
  | slt rd rs rt => exact asmThree_toNat .slt rd rs rt
  | addi rt rs imm4 => exact asmTwoImm_toNat .addi rt rs imm4
  | lw rt rs imm4 => exact asmTwoImm_toNat .lw rt rs imm4
  | sw rt rs imm4 => exact asmTwoImm_toNat .sw rt rs imm4
  | beq rs rt imm4 => exact asmTwoImm_toNat .beq rs rt imm4
  | jump field => exact assemble_jump field
  | rsvd101x opcode ignored =>
    have hdecode : decodeWord (opcode ++ ignored) = .rsvd101x opcode ignored :=
      decodeWord_encode (i := .rsvd101x opcode ignored) hi
    rw [assembly, assemble_word, hdecode]
  | rsvd11xx opcode ignored =>
    have hdecode : decodeWord (opcode ++ ignored) = .rsvd11xx opcode ignored :=
      decodeWord_encode (i := .rsvd11xx opcode ignored) hi
    rw [assembly, assemble_word, hdecode]

end Sys2Proof
end

section
/-! The cycle of the datapath, form by form, is the meaning of the fetched instruction; what a step of any state is; and the
statements O40, O6, O7, O23, O24 and O26 (spec/40_blocks.md R79 to R98). -/

namespace Sys2Proof.Machine

/-- BEQ as one assignment to the program counter: next-pc logic with `branch` set (spec/44_control_transfer.md R135). -/
theorem execBeq_eq_setPc (rs rt : RegNum) (imm4 : Imm4) (s : State) :
    execBeq rs rt imm4 s = .next (s.setPc
      (if zeroSignal (aluSub (s.readReg rs) (s.readReg rt)) = true then branchTarget s.pc imm4 else pcPlus2 s.pc)) := by
  unfold execBeq
  split
  case isTrue => rfl
  case isFalse => rfl

/-! ## The cycle of each instruction form (R81, R98)

In each lemma the fetched word is given by its fields and the control word by its row of the table; the two registers read,
the ALU's result and the three updates of the edge follow. -/

/-- The opcodes above the JUMP's have the default control word (R83). -/
theorem controlTable_reserved {opcode : BitVec 4} (h : 10 ≤ opcode.toNat) : controlTable opcode = .noOp := by
  revert opcode; decide

section CycleOfForm

variable {s : State} {op rs rt rd : BitVec 4}

/-- The cycle of a state whose ALU has the result `r`. -/
theorem cycle_of_alu {w r : Word} {c : ControlWord} (hw : s.fetchWord = w) (hc : controlTable (opcodeField w) = c)
    (halu : alu (s.readReg (rsField w)) (aluSrcMux c.aluSrc (s.readReg (rtField w)) (imm16 (rdField w))) c.aluOp = some r) :
    cycle s = .next (edgeUpdate s (settleWith s w c (s.readReg (rsField w)) (s.readReg (rtField w)) (imm16 (rdField w))
      (aluSrcMux c.aluSrc (s.readReg (rtField w)) (imm16 (rdField w))) r)) := by
  subst hw hc
  simp only [cycle, settle, halu]

/-- A row of the five register-register instructions: the function its ALU code selects, written to `rd`. -/
theorem cycle_registerForm {f : Word → Word → Word} {code : BitVec 3} (hcode : ∀ a b, alu a b code = some (f a b))
    (hw : s.fetchWord = op ++ rs ++ rt ++ rd) (hc : controlTable op = .register code) :
    cycle s = registerOp f rd rs rt s := by
  rw [cycle_of_alu hw (by rw [opcodeField_registerForm, hc]) (hcode _ _)]
  simp only [rsField_registerForm, rtField_registerForm, rdField_registerForm, settleWith]
  rfl

theorem cycle_addi (hw : s.fetchWord = 0b0101#4 ++ rs ++ rt ++ rd) : cycle s = execAddi rt rs rd s := by
  rw [cycle_of_alu hw (congrArg controlTable (opcodeField_registerForm ..)) rfl]
  simp only [rsField_registerForm, rtField_registerForm, rdField_registerForm, settleWith]
  rfl

theorem cycle_lw (hw : s.fetchWord = 0b0110#4 ++ rs ++ rt ++ rd) : cycle s = execLw rt rs rd s := by
  rw [cycle_of_alu hw (congrArg controlTable (opcodeField_registerForm ..)) rfl]
  simp only [rsField_registerForm, rtField_registerForm, rdField_registerForm, settleWith]
  rw [execLw, dataAddress, effectiveAddress_eq_aluAdd]
  rfl

theorem cycle_sw (hw : s.fetchWord = 0b0111#4 ++ rs ++ rt ++ rd) : cycle s = execSw rt rs rd s := by
  rw [cycle_of_alu hw (congrArg controlTable (opcodeField_registerForm ..)) rfl]
  simp only [rsField_registerForm, rtField_registerForm, rdField_registerForm, settleWith]
  rw [execSw, dataAddress, effectiveAddress_eq_aluAdd]
  rfl

theorem cycle_beq (hw : s.fetchWord = 0b1000#4 ++ rs ++ rt ++ rd) : cycle s = execBeq rs rt rd s := by
  rw [cycle_of_alu hw (congrArg controlTable (opcodeField_registerForm ..)) rfl]
  simp only [rsField_registerForm, rtField_registerForm, rdField_registerForm, settleWith]
  rw [execBeq_eq_setPc]
  rfl

theorem cycle_jump {f : BitVec 12} (hw : s.fetchWord = 0b1001#4 ++ f) : cycle s = execJump f s := by
  rw [cycle_of_alu hw (congrArg controlTable (opcodeField_append ..)) rfl]
  simp only [field12_append, settleWith]
  rfl

/-- A reserved opcode has the default control word, so its cycle only advances the program counter (R83). -/
theorem cycle_noOp {f : BitVec 12} (hw : s.fetchWord = op ++ f) (hc : controlTable op = .noOp) :
    cycle s = .next s.advance := by
  rw [cycle_of_alu hw (by rw [opcodeField_append, hc]) rfl]
  rfl

end CycleOfForm

/-- The datapath's cycle is the meaning of the instruction whose encoding is fetched, one lemma per row of the table. -/
theorem cycle_eq_exec_of_encode {s : State} {i : Instr} (hi : i.wellFormed = true) (hw : s.fetchWord = encode i) :
    cycle s = exec i s := by
  cases i with
  | add rd rs rt => exact cycle_registerForm (code := 0b000#3) (fun _ _ => rfl) hw rfl
  | sub rd rs rt => exact cycle_registerForm (code := 0b001#3) (fun _ _ => rfl) hw rfl
  | and rd rs rt => exact cycle_registerForm (code := 0b010#3) alu_code_and hw rfl
  | or rd rs rt => exact cycle_registerForm (code := 0b011#3) alu_code_or hw rfl
  | slt rd rs rt => exact cycle_registerForm (code := 0b100#3) (fun _ _ => rfl) hw rfl
  | addi rt rs imm4 => exact cycle_addi hw
  | lw rt rs imm4 => exact cycle_lw hw
  | sw rt rs imm4 => exact cycle_sw hw
  | beq rs rt imm4 => exact cycle_beq hw
  | jump field => exact cycle_jump hw
  | rsvd101x opcode ignored =>
    obtain ⟨hlo, -⟩ := (wellFormed_rsvd101x_iff opcode ignored).mp hi
    exact cycle_noOp hw (controlTable_reserved hlo)
  | rsvd11xx opcode ignored =>
    have hlo := (wellFormed_rsvd11xx_iff opcode ignored).mp hi
    exact cycle_noOp hw (controlTable_reserved (by omega))

/-- Settles O40: the fetched word is the encoding of the instruction it decodes to, which is well-formed. -/
theorem cycleIsMeaningOfFetchedInstruction : Obligations.CycleIsMeaningOfFetchedInstruction := fun s =>
  cycle_eq_exec_of_encode (wellFormed_decodeWord s.fetchWord) (encode_decodeWord s.fetchWord).symm

/-! ## A step is the fetched instruction's effect (R86, R98; 70_reset_and_hazards.md R183) -/

/-- The converse of `step_of_exec`: a step's answer comes from the fetched instruction's. -/
theorem exec_of_step {s t : State} (h : step s = .next t) :
    ∃ u, exec s.fetchInstr s = .next u ∧ t = u.tickClocks := by
  obtain ⟨u, hu⟩ := exec_eq_next s.fetchInstr s
  rw [step_of_exec hu] at h
  cases h
  exact ⟨u, hu, rfl⟩

/-- Settles O6: the two bytes are the fetched ones, and `exec` moves no tracker. -/
theorem stepRunsDecodedInstruction : Obligations.StepRunsDecodedInstruction := by
  intro s i _ hbytes
  have hfetch : s.fetchInstr = i := by
    have h := s.decodeBytes_fetchBytes.symm.trans hbytes
    injection h with h
    exact congrArg Prod.fst h
  obtain ⟨t, ht, -, hclocks, -⟩ := exec_cases i s
  exact ⟨t, ht, hclocks, step_of_exec (hfetch ▸ ht)⟩

/-- A 16-bit table word is the word itself. -/
theorem tableWord_toNat (w : Word) : tableWord 16 w.toNat = w := by
  rw [tableWord, Nat.mod_eq_of_lt w.isLt, BitVec.ofNat_toNat, BitVec.setWidth_eq]

/-- Settles O7: `exec` answers every instruction in every state, and the cycle and the step are `exec` of the fetched one. -/
theorem everyWordInEveryStateCompletes : Obligations.EveryWordInEveryStateCompletes := by
  intro s
  refine ⟨step_eq_next s, ?cycle, fun w => ?word⟩
  case cycle =>
    rw [cycleIsMeaningOfFetchedInstruction s]
    exact exec_eq_next _ s
  case word =>
    obtain ⟨t, ht⟩ := exec_eq_next (decodeWord w) (s.withFetchWord 16 w.toNat)
    have hfetch : (s.withFetchWord 16 w.toNat).fetchInstr = decodeWord w := by
      rw [State.fetchInstr, State.fetchWord_withFetchWord, tableWord_toNat]
    exact ⟨t, ht, step_of_exec (hfetch ▸ ht)⟩

/-! ## The control decoder and the next-pc logic (R79, R83, R89) -/

/-- The ALU has no result exactly on the three codes above the five defined ones. -/
theorem alu_eq_none_iff (a b : Word) (op : BitVec 3) : alu a b op = none ↔ 5 ≤ op.toNat := by
  rw [← Option.not_isSome_iff_eq_none, alu_isSome, decide_eq_true_eq]
  omega

/-- Settles O23: no row of the control table emits a code above 4, so the ALU of every state has a result. -/
theorem undefinedAluCodesAreUnreachable : Obligations.UndefinedAluCodesAreUnreachable := by
  refine ⟨alu_eq_none_iff, controlTable_aluOp_le_four, fun s => ?settles⟩
  case settles =>
    obtain ⟨r, hr⟩ := settle_eq_ok s
    exact ⟨_, hr⟩

theorem controlTable_branch_and_jump (opcode : BitVec 4) :
    ((controlTable opcode).branch && (controlTable opcode).jump) = false := by
  revert opcode; decide

/-- Settles O24: the rows are looked through for `branch` and `jump`, and the reserved opcodes have the default word. -/
theorem defaultControlWordWritesNothing : Obligations.DefaultControlWordWritesNothing := by
  refine fun opcode => ⟨controlTable_branch_and_jump opcode, fun h => ?reserved⟩
  case reserved =>
    rw [controlTable_reserved h]
    exact ⟨rfl, rfl, rfl, rfl⟩

/-- The nets of the next-pc logic in a settled cycle. -/
theorem nextPc_of_settle {s : State} {g : Signals} (h : settle s = .ok g) :
    g.pcPlus2 = pcPlus2 s.pc ∧ g.zero = zeroSignal g.aluResult ∧
      g.nextPc = nextPcLogic .external g.control.branch g.control.jump g.zero g.pcPlus2 g.branchTarget g.jumpTarget := by
  obtain ⟨-, -, hg⟩ := signals_of_settle h
  rw [hg]
  exact ⟨rfl, rfl, rfl⟩

theorem zeroSignal_iff (r : Word) : zeroSignal r = true ↔ r = 0 := beq_iff_eq

section NextPcLogic

variable {branch zero : Bool} (plus2 branchT jumpT : Word)

theorem nextPcLogic_jump : nextPcLogic .external branch true zero plus2 branchT jumpT = jumpT := rfl

theorem nextPcLogic_taken : nextPcLogic .external true false true plus2 branchT jumpT = branchT := rfl

theorem nextPcLogic_sequence (h : branch = false ∨ zero = false) :
    nextPcLogic .external branch false zero plus2 branchT jumpT = plus2 := by
  obtain rfl | rfl := h
  · rfl
  · cases branch <;> rfl

end NextPcLogic

/-- Settles O26: the three cases of the next-pc logic, on the nets of the settled cycle. -/
theorem nextPcFollowsJumpBranchZero : Obligations.NextPcFollowsJumpBranchZero := by
  intro s
  obtain ⟨r, hr⟩ := settle_eq_ok s
  obtain ⟨hplus2, hzero, hnext⟩ := nextPc_of_settle hr
  refine ⟨_, hr, ?plus2, ?zero, fun hjump => ?jump, fun hjump hbranch hz => ?taken, fun hjump hseq => ?sequence⟩
  case plus2 => rw [hplus2, pcPlus2_toNat]
  case zero => rw [hzero, zeroSignal_iff]
  case jump => rw [hnext, hjump, nextPcLogic_jump]
  case taken => rw [hnext, hjump, hbranch, hz, nextPcLogic_taken]
  case sequence => rw [hnext, hjump, nextPcLogic_sequence _ _ _ hseq]

end Sys2Proof.Machine
end

section
/-! The results of the ALU's adding, subtracting and comparing codes, what SUB, SLT and a write to any register do, and the
statements O9, O12, O19, O21, O22 and O30 (spec/40_blocks.md R74, R75, R78; 41_alu_register.md R111, R114). -/

namespace Sys2Proof.Machine

/-! ## The codes of the sum, the difference and the comparison (40_blocks.md R73) -/

theorem alu_code_add (a b : Word) : alu a b 0b000#3 = some (aluAdd a b) := rfl

theorem alu_code_sub (a b : Word) : alu a b 0b001#3 = some (aluSub a b) := rfl

theorem alu_code_slt (a b : Word) : alu a b 0b100#3 = some (aluSlt a b) := rfl

/-! ## Subtraction and comparison as numbers (R75, R78) -/

/-- The plain difference where there is one, else the difference borrowed from 65536 (D5, log 4). -/
theorem aluSub_toNat (a b : Word) :
    if b.toNat ≤ a.toNat then (aluSub a b).toNat = a.toNat - b.toNat
      else (aluSub a b).toNat = a.toNat + 65536 - b.toNat := by
  have ha := a.isLt
  rw [aluSub_eq, BitVec.toNat_sub]
  split
  case isTrue => omega
  case isFalse => omega

theorem aluSlt_toNat (a b : Word) : (aluSlt a b).toNat = if a.toNat < b.toNat then 1 else 0 := by
  rw [aluSlt]
  split
  case isTrue => rfl
  case isFalse => rfl

theorem zeroSignal_aluSlt (a b : Word) : zeroSignal (aluSlt a b) = true ↔ b.toNat ≤ a.toNat := by
  rw [zeroSignal_iff, aluSlt]
  split
  case isTrue hlt => simpa using hlt
  case isFalse hge => simpa using hge

/-- Settles O19: code 000 selects `aluAdd`, whose result is the sum under either reading of the operands. -/
theorem aluAddIsSumModulo : Obligations.AluAddIsSumModulo := fun a b =>
  ⟨aluAdd a b, alu_code_add a b, aluAdd_toNat a b, aluAdd_eq_ofInt a b⟩

/-- Settles O22: code 001 selects `aluSub`, whose wrap-around keeps unequal operands from a zero difference. -/
theorem aluSubWrapsAndTestsEquality : Obligations.AluSubWrapsAndTestsEquality := by
  refine fun a b => ⟨aluSub a b, alu_code_sub a b, aluSub_toNat a b, ?zero⟩
  case zero => rw [zeroSignal_aluSub, decide_eq_true_eq]

/-- Settles O21: code 100 selects `aluSlt`, which is 0 exactly when the comparison fails. -/
theorem aluSltComparesUnsigned : Obligations.AluSltComparesUnsigned := fun a b =>
  ⟨aluSlt a b, alu_code_slt a b, aluSlt_toNat a b, zeroSignal_aluSlt a b⟩

/-! ## SUB and SLT (41_alu_register.md R111, R114) -/

/-- Settles O9: `registerOp` of `aluSub`, in the two cases of the subtraction. -/
theorem subWritesWrappedDifference : Obligations.SubWritesWrappedDifference := by
  intro rd rs rt s
  obtain ⟨t, hexec, hresult, hframe⟩ := registerOp_spec aluSub rd rs rt s
  refine ⟨decodeWord_sub rd rs rt, t, hexec, ?difference, hframe⟩
  case difference =>
    rw [hresult]
    exact aluSub_toNat _ _

/-- Settles O12: `registerOp` of `aluSlt`, read as a number. -/
theorem sltWritesUnsignedLessThan : Obligations.SltWritesUnsignedLessThan := by
  intro rd rs rt s
  obtain ⟨t, hexec, hresult, hframe⟩ := registerOp_spec aluSlt rd rs rt s
  refine ⟨decodeWord_slt rd rs rt, rfl, rfl, t, hexec, ?comparison, hframe⟩
  case comparison => rw [hresult, aluSlt_toNat]

/-! ## Register 0 is an ordinary register (10_state.md R12; D7, log 16) -/

theorem aluAdd_imm16_zero (a : Word) : aluAdd a (imm16 0) = a := by
  have hzero : imm16 0 = 0#16 := rfl
  rw [aluAdd_eq, hzero, BitVec.add_zero]

/-- Settles O30: a written register reads back, and ADDI with the immediate 0 writes its source to register 0. -/
theorem everyRegisterIsWritable : Obligations.EveryRegisterIsWritable := by
  intro s r q v
  obtain ⟨t, hexec, hresult, -⟩ := exec_addi_spec 0 q 0 s
  exact ⟨s.readReg_writeReg r v q, t, hexec, hresult.trans (aluAdd_imm16_zero _)⟩

end Sys2Proof.Machine
end

section
/-! The branch and jump targets by value and by bit, what BEQ, JUMP and the reserved rows do and leave unchanged, and the
statements O28, O29, O16, O17 and O18 (spec/30_encoding.md R53, R54; 44_control_transfer.md; 45_reserved_opcodes.md). -/

namespace Sys2Proof.Machine

/-! ## The branch target (R53) -/

/-- No bit is lost in the shift: twice a signed 4-bit value fits in 16 bits. -/
theorem offset16_toInt (k : Imm4) : (offset16 k).toInt = 2 * k.toInt := by
  revert k; decide

/-- Adding a word reads it as signed or unsigned alike, modulo 2^16. -/
theorem add_toNat_signed_right (a b : Word) : ((a + b).toNat : Int) = (a.toNat + b.toInt) % 65536 := by
  rw [← aluAdd_eq, aluAdd_toNat_signed_right]

theorem branchTarget_toNat (pc : Word) (k : Imm4) :
    ((branchTarget pc k).toNat : Int) = (pc.toNat + 2 + 2 * k.toInt) % 65536 := by
  rw [branchTarget, add_toNat_signed_right, offset16_toInt, pcPlus2_toNat]
  omega

/-- Settles O28: the offset is twice the field's signed value, -8 to 7, and is added to `pc + 2`. -/
theorem branchTargetCountsFromNextInstruction : Obligations.BranchTargetCountsFromNextInstruction := by
  intro pc k
  obtain ⟨hlo, hhi⟩ := imm4_toInt_bounds k
  have hoff := offset16_toInt k
  exact ⟨hoff, by omega, by omega, branchTarget_toNat pc k⟩

/-! ## The jump target (R54; D10, log 5) -/

section TargetLayout

/-! Each reading lays the target out as some bits of the pc, the field or its low bits, and a last 0. -/

variable {n m : Nat} (top : BitVec n) (low : BitVec m)

theorem append_zero_getLsbD (i : Nat) : (top ++ low ++ 0#1).getLsbD i =
    if i = 0 then false else if i - 1 < m then low.getLsbD (i - 1) else top.getLsbD (i - 1 - m) := by
  rw [← BitVec.getLsbD_append]
  exact BitVec.getLsbD_concat (top ++ low) false i

theorem append_zero_toNat : (top ++ low ++ 0#1).toNat = (2 ^ m * top.toNat + low.toNat) * 2 := by
  have hconcat : (top ++ low ++ 0#1).toNat = (top ++ low).toNat * 2 := BitVec.toNat_concat (top ++ low) false
  rw [hconcat, BitVec.toNat_append, ← Nat.shiftLeft_add_eq_or_of_lt low.isLt, Nat.shiftLeft_eq, Nat.mul_comm top.toNat]

variable {field : BitVec 12} (hm : 11 ≤ m) (hlow : ∀ j < 11, low.getLsbD j = field.getLsbD j)
include hm hlow

theorem append_zero_getLsbD_low {i : Nat} (hi : i < 12) :
    (top ++ low ++ 0#1).getLsbD i = (decide (0 < i) && field.getLsbD (i - 1)) := by
  rw [append_zero_getLsbD]
  by_cases hzero : i = 0
  · rw [if_pos hzero, hzero]; rfl
  · rw [if_neg hzero, if_pos (by omega), hlow _ (by omega), decide_eq_true (Nat.pos_of_ne_zero hzero), Bool.true_and]

end TargetLayout

/-- Under each reading the target's low twelve bits are the field's low eleven before a 0. -/
theorem jumpTargetOf_getLsbD_low (form : Config.JumpForm) (pc : Word) (field : BitVec 12) {i : Nat} (hi : i < 12) :
    (jumpTargetOf form pc field).getLsbD i = (decide (0 < i) && field.getLsbD (i - 1)) := by
  cases form with
  | shiftInField =>
    refine append_zero_getLsbD_low (pc.extractLsb' 12 4) (field.extractLsb' 0 11) le_rfl (fun j hj => ?_) hi
    simp [hj]
  | keepField => exact append_zero_getLsbD_low (pc.extractLsb' 13 3) field (by decide) (fun _ _ => rfl) hi
  | lowBits => exact append_zero_getLsbD_low (pc.extractLsb' 12 3) field (by decide) (fun _ _ => rfl) hi

/-- Under each reading the target names the cell at twice the field's low four bits. -/
theorem jumpTargetOf_toNat_mod (form : Config.JumpForm) (pc : Word) (field : BitVec 12) :
    (jumpTargetOf form pc field).toNat % 32 = 2 * (field.toNat % 16) := by
  cases form with
  | shiftInField =>
    have h := append_zero_toNat (pc.extractLsb' 12 4) (field.extractLsb' 0 11)
    rw [BitVec.extractLsb'_toNat 0 11 field, Nat.shiftRight_zero] at h
    exact (congrArg (· % 32) h).trans (by omega)
  | keepField => exact (congrArg (· % 32) (append_zero_toNat (pc.extractLsb' 13 3) field)).trans (by omega)
  | lowBits => exact (congrArg (· % 32) (append_zero_toNat (pc.extractLsb' 12 3) field)).trans (by omega)

theorem jumpTarget_getLsbD_high (pc : Word) (field : BitVec 12) {i : Nat} (hlo : 12 ≤ i) (hhi : i < 16) :
    (jumpTarget pc field).getLsbD i = pc.getLsbD i := by
  refine (append_zero_getLsbD (pc.extractLsb' 12 4) (field.extractLsb' 0 11) i).trans ?_
  have hidx : 12 + (i - 1 - 11) = i := by omega
  rw [if_neg (by omega), if_neg (by omega), BitVec.getLsbD_extractLsb', hidx, decide_eq_true (by omega), Bool.true_and]

/-- Settles O29: the readings differ above bit 11 alone, and a fetch looks at bits 4 to 0. -/
theorem jumpReadingsAgreeOnFetch : Obligations.JumpReadingsAgreeOnFetch := fun form pc field =>
  ⟨fun _ hi => jumpTargetOf_getLsbD_low form pc field hi, jumpTargetOf_toNat_mod form pc field, rfl⟩

/-! ## BEQ, JUMP and the reserved rows: result and frame -/

/-- BEQ only moves the program counter, to the branch target exactly when its registers are equal. -/
theorem exec_beq_eq (rs rt : RegNum) (imm4 : Imm4) (s : State) :
    exec (.beq rs rt imm4) s =
      .next (s.setPc (if s.readReg rs = s.readReg rt then branchTarget s.pc imm4 else pcPlus2 s.pc)) := by
  have h := execBeq_eq_setPc rs rt imm4 s
  simp only [zeroSignal_aluSub, decide_eq_true_eq] at h
  exact h

theorem setPc_frame (s : State) (target : Word) :
    SameRegs s (s.setPc target) ∧ SameData s (s.setPc target) ∧ SameRest s (s.setPc target) :=
  ⟨fun _ => rfl, fun _ => rfl, fun _ => rfl, rfl⟩

/-- Settles O16: the program counter BEQ sets is the branch target or `pc + 2`, by the equality of the registers. -/
theorem beqBranchesWhenEqual : Obligations.BeqBranchesWhenEqual := by
  intro rs rt imm4 s
  refine ⟨decodeWord_beq rs rt imm4, _, exec_beq_eq rs rt imm4 s, ?target, setPc_frame s _⟩
  rw [PcAdvances, State.setPc_pc]
  split
  case isTrue => exact branchTarget_toNat s.pc imm4
  case isFalse => exact pcPlus2_toNat s.pc

/-- Settles O17: the target's bits, those below 12 as in every reading of the formula and those above from the JUMP's pc. -/
theorem jumpTakesFieldTarget : Obligations.JumpTakesFieldTarget := by
  intro field s
  refine ⟨decodeWord_jump field, _, rfl, fun i hi => ?bit, setPc_frame s _⟩
  rw [State.setPc_pc]
  by_cases hlow : i < 12
  · rw [jumpTarget, jumpTargetOf_getLsbD_low _ _ _ hlow, if_pos hlow]
    by_cases hzero : i = 0
    · rw [if_pos hzero, hzero]; rfl
    · rw [if_neg hzero, decide_eq_true (Nat.pos_of_ne_zero hzero), Bool.true_and]
  · rw [jumpTarget_getLsbD_high _ _ (by omega) hi, if_neg hlow, if_neg (by omega)]

theorem advance_spec (s : State) :
    PcAdvances s s.advance ∧ SameRegs s s.advance ∧ SameData s s.advance ∧ SameRest s s.advance :=
  ⟨pcPlus2_toNat s.pc, setPc_frame s _⟩

/-- Settles O18: both rows are `advance`, and the opcode chooses the row. -/
theorem reservedOpcodesOnlyAdvance : Obligations.ReservedOpcodesOnlyAdvance :=
  ⟨fun _ ignored h => decodeWord_reserved h ignored,
    fun _ _ s => ⟨⟨s.advance, rfl, advance_spec s⟩, ⟨s.advance, rfl, advance_spec s⟩⟩⟩

end Sys2Proof.Machine
end

section
/-! What a data cell holds after a word is stored, what SW does and leaves unchanged, and the statements O15 and O33
(spec/43_load_store.md R126; 20_memory.md R33, R34, R45). -/

namespace Sys2Proof.Machine

/-! ## A data cell after a store (20_memory.md R33) -/

section Store

variable (s : State) (a v : Word)

theorem State.dataByte_storeWord (i : Nat) : (s.storeWord a v).dataByte i =
    if i = cellIndex Config.dmemBytes a then hiByte v
    else if i = nextCellIndex Config.dmemBytes a then loByte v else s.dataByte i :=
  Memory.readByte_writeWord Config.dmemBytes s.dmem a v i

theorem State.dataByte_storeWord_high : (s.storeWord a v).dataByte (a.toNat % 32) = hiByte v := by
  rw [State.dataByte_storeWord, cellIndex_dmem, if_pos rfl]

theorem State.dataByte_storeWord_low : (s.storeWord a v).dataByte ((a.toNat + 1) % 32) = loByte v := by
  rw [State.dataByte_storeWord, cellIndex_dmem, nextCellIndex_dmem, if_neg (by omega), if_pos rfl]

theorem sameDataBut_storeWord : SameDataBut a s (s.storeWord a v) := fun i hcell hnext => by
  rw [State.dataByte_storeWord, if_neg hcell, if_neg hnext]

end Store

/-! ## Result and frame of SW (43_load_store.md R126) -/

/-- SW completes with the word of `x[rt]` stored at the effective address, both registers read before, and changes nothing
else but the program counter. -/
theorem exec_sw_eq (rt rs : RegNum) (imm4 : Imm4) (s : State) :
    exec (.sw rt rs imm4) s = .next ((s.storeWord (dataAddress rs imm4 s) (s.readReg rt)).advance) := rfl

/-- Settles O15: the cells of the state SW answers are those of `storeWord`. -/
theorem swStoresBigEndianWord : Obligations.SwStoresBigEndianWord := by
  intro rt rs imm4 s
  refine ⟨decodeWord_sw rt rs imm4, dataAddress_toNat rs imm4 s, _, exec_sw_eq rt rs imm4 s, ?high, ?low, ?others,
    fun _ => rfl, pcPlus2_toNat s.pc, fun _ => rfl, rfl⟩
  case high => exact s.dataByte_storeWord_high (dataAddress rs imm4 s) (s.readReg rt)
  case low => exact s.dataByte_storeWord_low (dataAddress rs imm4 s) (s.readReg rt)
  case others => exact sameDataBut_storeWord s (dataAddress rs imm4 s) (s.readReg rt)

/-! ## Loads that overlap a stored word (20_memory.md R34, R45) -/

/-- Settles O33: each load is two cells; of the four cells around `a` the store has written the middle two. -/
theorem storedWordSeenByOverlappingLoads : Obligations.StoredWordSeenByOverlappingLoads := by
  intro s a v
  refine ⟨s.loadWord_storeWord a v, ?after, ?before⟩
  case after =>
    have hlow : (a + 1).toNat % 32 = (a.toNat + 1) % 32 := by bv_omega
    have hnext : ((a + 1).toNat + 1) % 32 = (a.toNat + 2) % 32 := by bv_omega
    have hframe : (s.storeWord a v).dataByte ((a.toNat + 2) % 32) = s.dataByte ((a.toNat + 2) % 32) :=
      sameDataBut_storeWord s a v _ (by rw [cellIndex_dmem]; omega) (by rw [nextCellIndex_dmem]; omega)
    rw [State.loadWord_eq_append, hlow, hnext, State.dataByte_storeWord_low, hframe, loByte]
  case before =>
    have hprev : (a - 1).toNat % 32 = (a.toNat + 31) % 32 := by bv_omega
    have hhigh : ((a - 1).toNat + 1) % 32 = a.toNat % 32 := by bv_omega
    have hframe : (s.storeWord a v).dataByte ((a.toNat + 31) % 32) = s.dataByte ((a.toNat + 31) % 32) :=
      sameDataBut_storeWord s a v _ (by rw [cellIndex_dmem]; omega) (by rw [nextCellIndex_dmem]; omega)
    rw [State.loadWord_eq_append, hprev, hhigh, State.dataByte_storeWord_high, hframe, hiByte]

end Sys2Proof.Machine
end

section
/-! What one instruction can do to the program counter, the data memory and the registers, what the two states of a relation
do alike, how a fact of every step becomes one of every run, and the statements O50, O51, O43, O44 and O46 to O49
(spec/10_state.md R14, R17, R18, R23 to R25). -/

namespace Sys2Proof.Machine

variable {i : Instr} {s t s' t' : State}

/-! ## The next program counter of an instruction (R17) -/

/-- The program counter after an instruction, as a function of the state before it; `pc_of_exec` ties it to `exec`. -/
def nextPcOf (i : Instr) (s : State) : Word :=
  match i with
  | .beq rs rt imm4 => if s.readReg rs = s.readReg rt then branchTarget s.pc imm4 else pcPlus2 s.pc
  | .jump field => jumpTarget s.pc field
  | _ => pcPlus2 s.pc

theorem pc_of_exec (h : exec i s = .next t) : t.pc = nextPcOf i s := by
  cases i with
  | beq rs rt imm4 => rw [exec_beq_eq] at h; cases h; rfl
  | _ => cases h; rfl

/-- Only a BEQ with equal registers and a JUMP leave the sequence. -/
theorem nextPcOf_cases (i : Instr) (s : State) :
    nextPcOf i s = pcPlus2 s.pc ∨
      (∃ rs rt imm4, i = .beq rs rt imm4 ∧ s.readReg rs = s.readReg rt ∧ nextPcOf i s = branchTarget s.pc imm4) ∨
      ∃ f, i = .jump f := by
  cases i with
  | beq rs rt imm4 =>
    by_cases heq : s.readReg rs = s.readReg rt
    · exact .inr (.inl ⟨rs, rt, imm4, rfl, heq, if_pos heq⟩)
    · exact .inl (if_neg heq)
  | jump f => exact .inr (.inr ⟨f, rfl⟩)
  | _ => exact .inl rfl

/-! ## Parity of the program counter (R18) -/

theorem pcPlus2_even_iff (pc : Word) : (pcPlus2 pc).toNat % 2 = 0 ↔ pc.toNat % 2 = 0 := by
  rw [pcPlus2_toNat]; omega

theorem branchTarget_even_iff (pc : Word) (k : Imm4) : (branchTarget pc k).toNat % 2 = 0 ↔ pc.toNat % 2 = 0 := by
  have h := branchTarget_toNat pc k
  omega

theorem jumpTarget_even (pc : Word) (field : BitVec 12) : (jumpTarget pc field).toNat % 2 = 0 := by
  have h := jumpTargetOf_toNat_mod Config.jumpForm pc field
  rw [jumpTarget]; omega

/-- Settles O44: a JUMP's target is even, and `pc + 2` and the branch target have the parity of the pc. -/
theorem stepKeepsPcParityUntilJump : Obligations.StepKeepsPcParityUntilJump := by
  intro s t hstep
  obtain ⟨u, hexec, rfl⟩ := exec_of_step hstep
  rw [State.PcEven, State.tickClocks_pc, pc_of_exec hexec]
  refine ⟨fun f hjump => ?jump, fun hother => ?other⟩
  case jump =>
    rw [hjump]
    exact jumpTarget_even s.pc f
  case other =>
    obtain hplus2 | ⟨rs, rt, imm4, -, -, htaken⟩ | ⟨f, hjump⟩ := nextPcOf_cases s.fetchInstr s
    · rw [hplus2, pcPlus2_even_iff]
    · rw [htaken, branchTarget_even_iff]
    · exact absurd hjump (hother f)

/-- Settles O49: every other instruction's next pc is `pc + 2`. -/
theorem onlyTakenBranchOrJumpLeavesSequence : Obligations.OnlyTakenBranchOrJumpLeavesSequence := by
  intro s t hstep hpc
  obtain ⟨u, hexec, rfl⟩ := exec_of_step hstep
  rw [State.tickClocks_pc, pc_of_exec hexec] at hpc
  obtain hplus2 | ⟨rs, rt, imm4, hbeq, heq, -⟩ | hjump := nextPcOf_cases s.fetchInstr s
  · exact absurd (hplus2 ▸ pcPlus2_toNat s.pc) hpc
  · exact .inl ⟨rs, rt, imm4, hbeq, heq⟩
  · exact .inr hjump

/-! ## Memories and registers after an instruction (R14, R23, R24) -/

theorem imem_of_exec (h : exec i s = .next t) : t.imem = s.imem := by
  obtain ⟨u, hu, himem, -⟩ := exec_cases i s
  cases h.symm.trans hu
  exact himem

theorem clocks_of_exec (h : exec i s = .next t) : t.clocks = s.clocks := by
  obtain ⟨u, hu, -, hclocks, -⟩ := exec_cases i s
  cases h.symm.trans hu
  exact hclocks

/-- Only SW touches the data memory. -/
theorem dmem_of_exec (h : exec i s = .next t) :
    t.dmem = s.dmem ∨
      ∃ rt rs imm4, i = .sw rt rs imm4 ∧ t.dmem = (s.storeWord (dataAddress rs imm4 s) (s.readReg rt)).dmem := by
  cases i with
  | sw rt rs imm4 => cases h; exact .inr ⟨rt, rs, imm4, rfl, rfl⟩
  | beq rs rt imm4 => rw [exec_beq_eq] at h; cases h; exact .inl rfl
  | _ => cases h; exact .inl rfl

theorem regs_of_exec (h : exec i s = .next t) : t.regs = s.regs ∨ ∃ r v, t.regs = (s.writeReg r v).regs := by
  obtain ⟨u, hu, -, -, hregs, -⟩ := exec_cases i s
  cases h.symm.trans hu
  exact hregs

theorem State.readReg_congr (h : s.regs = t.regs) (r : RegNum) : s.readReg r = t.readReg r := by
  rw [State.readReg, State.readReg, h]

/-- Settles O43: the instruction memory is as before, and the data memory is as before or takes one word. -/
theorem stepKeepsMemoriesCanonical : Obligations.StepKeepsMemoriesCanonical := by
  rintro s t ⟨himem, hdmem⟩ hstep
  obtain ⟨u, hexec, rfl⟩ := exec_of_step hstep
  refine State.MemoriesCanonical_tickClocks ⟨?imem, ?dmem⟩
  case imem => rwa [imem_of_exec hexec]
  case dmem =>
    obtain hsame | ⟨rt, rs, imm4, -, hstore⟩ := dmem_of_exec hexec
    · rwa [hsame]
    · rw [hstore]
      exact Memory.wf_writeWord (by decide) _ _ hdmem

/-- Settles O47: the register written, or any register when none is. -/
theorem stepChangesAtMostOneRegister : Obligations.StepChangesAtMostOneRegister := by
  intro s t hstep
  obtain ⟨u, hexec, rfl⟩ := exec_of_step hstep
  obtain hsame | ⟨r, v, hwrite⟩ := regs_of_exec hexec
  · exact ⟨0, fun q _ => State.readReg_congr hsame q⟩
  · refine ⟨r, fun q hq => ?_⟩
    rw [State.tickClocks_readReg, State.readReg_congr hwrite q, State.readReg_writeReg, if_neg hq]

/-- Settles O48: a cell that differs is one of the two that the SW's store does not keep. -/
theorem onlySwChangesDataMemory : Obligations.OnlySwChangesDataMemory := by
  intro s t j hstep hne
  obtain ⟨u, hexec, rfl⟩ := exec_of_step hstep
  rw [State.dataByte, State.tickClocks_dmem] at hne
  obtain hsame | ⟨rt, rs, imm4, hsw, hstore⟩ := dmem_of_exec hexec
  · exact absurd (by rw [hsame]; rfl) hne
  · refine ⟨rt, rs, imm4, hsw, ?_⟩
    rw [hstore] at hne
    by_contra hcells
    obtain ⟨hcell, hnext⟩ := not_or.mp hcells
    exact hne (sameDataBut_storeWord s (dataAddress rs imm4 s) (s.readReg rt) j hcell hnext)

/-! ## From every step to every run -/

theorem runEdges_succ_of_step (h : step s = .next t) (k : Nat) : runEdges (k + 1) s = runEdges k t := by
  simp [runEdges, h]

/-- What every step keeps, every run keeps; and every run reaches a state. -/
theorem runEdges_keeps {P : State → Prop} (hstep : ∀ s t, P s → step s = .next t → P t) (k : Nat) :
    ∀ s, P s → ∃ t, runEdges k s = .next t ∧ P t := by
  induction k with
  | zero => exact fun s hs => ⟨s, rfl, hs⟩
  | succ k ih =>
    intro s hs
    obtain ⟨t, ht⟩ := step_eq_next s
    rw [runEdges_succ_of_step ht]
    exact ih t (hstep s t hs ht)

/-- A relation that every pair of steps keeps, every pair of runs of one length keeps. -/
theorem runEdges_related {R : State → State → Prop}
    (hstep : ∀ s t s' t', R s t → step s = .next s' → step t = .next t' → R s' t') (k : Nat) :
    ∀ s t, R s t → ∃ s' t', runEdges k s = .next s' ∧ runEdges k t = .next t' ∧ R s' t' := by
  induction k with
  | zero => exact fun s t hst => ⟨s, t, rfl, rfl, hst⟩
  | succ k ih =>
    intro s t hst
    obtain ⟨s₁, hs⟩ := step_eq_next s
    obtain ⟨t₁, ht⟩ := step_eq_next t
    rw [runEdges_succ_of_step hs, runEdges_succ_of_step ht]
    exact ih s₁ t₁ (hstep s t s₁ t₁ hst hs ht)

/-- Settles O46: no step writes the instruction memory. -/
theorem runNeverChangesInstructionMemory : Obligations.RunNeverChangesInstructionMemory := by
  refine fun k s => runEdges_keeps (P := fun t => t.imem = s.imem) (fun t t' ht hstep => ?_) k s rfl
  obtain ⟨u, hexec, rfl⟩ := exec_of_step hstep
  rw [State.tickClocks_imem, imem_of_exec hexec, ht]

/-! ## Two states that agree on what an instruction reads

An instruction reads the registers, the data memory and, for its next pc alone, the program counter; the fetch reads the
instruction memory at the program counter modulo 32. -/

/-- The registers and the data memory after an instruction depend on those before it alone. -/
theorem data_congr_of_exec (hregs : s.regs = t.regs) (hdmem : s.dmem = t.dmem) (hs : exec i s = .next s')
    (ht : exec i t = .next t') : s'.regs = t'.regs ∧ s'.dmem = t'.dmem := by
  obtain ⟨regs, pc, imem, dmem, clocks⟩ := s
  obtain ⟨regs', pc', imem', dmem', clocks'⟩ := t
  subst hregs hdmem
  cases i with
  | beq rs rt imm4 =>
    rw [exec_beq_eq] at hs ht
    cases hs; cases ht
    exact ⟨rfl, rfl⟩
  | _ =>
    cases hs; cases ht
    exact ⟨rfl, rfl⟩

theorem fetchInstr_congr (himem : s.imem = t.imem) (hpc : s.pc.toNat % 32 = t.pc.toNat % 32) :
    s.fetchInstr = t.fetchInstr := by
  rw [State.fetchInstr, State.fetchInstr, State.fetchWord, State.fetchWord, himem, Memory.readWord_congr t.imem hpc]

theorem nextPcOf_congr (hregs : s.regs = t.regs) (hpc : s.pc = t.pc) (i : Instr) : nextPcOf i s = nextPcOf i t := by
  cases i with
  | beq rs rt imm4 => simp only [nextPcOf, hpc, State.readReg_congr hregs]
  | _ => simp only [nextPcOf, hpc]

/-! ## The clock state (R25) -/

theorem SameArchitecture_step (h : s.SameArchitecture t) (hs : step s = .next s') (ht : step t = .next t') :
    s'.SameArchitecture t' := by
  obtain ⟨hregs, hpc, himem, hdmem⟩ := h
  obtain ⟨u, hu, rfl⟩ := exec_of_step hs
  obtain ⟨v, hv, rfl⟩ := exec_of_step ht
  rw [← fetchInstr_congr himem (by rw [hpc])] at hv
  obtain ⟨hregs', hdmem'⟩ := data_congr_of_exec hregs hdmem hu hv
  refine State.SameArchitecture_tickClocks ⟨hregs', ?pc, ?imem, hdmem'⟩
  case pc => rw [pc_of_exec hu, pc_of_exec hv, nextPcOf_congr hregs hpc]
  case imem => rw [imem_of_exec hu, imem_of_exec hv, himem]

theorem runEdges_sameArchitecture (k : Nat) {s t : State} (h : s.SameArchitecture t) :
    ∃ s' t', runEdges k s = .next s' ∧ runEdges k t = .next t' ∧ s'.SameArchitecture t' :=
  runEdges_related (fun _ _ _ _ => SameArchitecture_step) k s t h

/-- Settles O51: states that differ in the trackers alone have one architecture, which every step keeps. -/
theorem clockStateIsUnobservable : Obligations.ClockStateIsUnobservable := fun k s c =>
  runEdges_sameArchitecture k (t := { s with clocks := c }) ⟨rfl, rfl, rfl, rfl⟩

/-! ## Bits 15 to 5 of the program counter (R18) -/

theorem pcPlus2_mod_congr {p q : Word} (h : p.toNat % 32 = q.toNat % 32) :
    (pcPlus2 p).toNat % 32 = (pcPlus2 q).toNat % 32 := by
  rw [pcPlus2_toNat, pcPlus2_toNat]; omega

theorem branchTarget_mod_congr {p q : Word} (h : p.toNat % 32 = q.toNat % 32) (k : Imm4) :
    (branchTarget p k).toNat % 32 = (branchTarget q k).toNat % 32 := by
  have hp := branchTarget_toNat p k
  have hq := branchTarget_toNat q k
  omega

/-- The low five bits of the next pc depend on the registers and the low five bits of the pc; those of a JUMP's target not
even on these. -/
theorem nextPcOf_mod_congr (hregs : s.regs = t.regs) (hpc : s.pc.toNat % 32 = t.pc.toNat % 32) (i : Instr) :
    (nextPcOf i s).toNat % 32 = (nextPcOf i t).toNat % 32 := by
  cases i with
  | beq rs rt imm4 =>
    simp only [nextPcOf, State.readReg_congr hregs]
    split
    case isTrue => exact branchTarget_mod_congr hpc imm4
    case isFalse => exact pcPlus2_mod_congr hpc
  | jump f => exact (jumpTargetOf_toNat_mod _ s.pc f).trans (jumpTargetOf_toNat_mod _ t.pc f).symm
  | _ => exact pcPlus2_mod_congr hpc

theorem SameButHighPc_step (h : s.SameButHighPc t) (hs : step s = .next s') (ht : step t = .next t') :
    s'.SameButHighPc t' := by
  obtain ⟨hregs, hpc, himem, hdmem, hclocks⟩ := h
  obtain ⟨u, hu, rfl⟩ := exec_of_step hs
  obtain ⟨v, hv, rfl⟩ := exec_of_step ht
  rw [← fetchInstr_congr himem hpc] at hv
  obtain ⟨hregs', hdmem'⟩ := data_congr_of_exec hregs hdmem hu hv
  refine State.SameButHighPc_tickClocks ⟨hregs', ?pc, ?imem, hdmem', ?clocks⟩
  case pc => rw [pc_of_exec hu, pc_of_exec hv, nextPcOf_mod_congr hregs hpc]
  case imem => rw [imem_of_exec hu, imem_of_exec hv, himem]
  case clocks => rw [clocks_of_exec hu, clocks_of_exec hv, hclocks]

/-- Settles O50: the two states fetch one instruction, and it keeps them equal but for the high bits of the pc. -/
theorem highPcBitsNeverAffectRuns : Obligations.HighPcBitsNeverAffectRuns := fun k s t h =>
  runEdges_related (fun _ _ _ _ => SameButHighPc_step) k s t h

end Sys2Proof.Machine
end

section
/-! The core under clock levels: a level without a rising edge holds the state, a rising edge of all elements together is a
step, and the statements O41, O42, O34, O36 and O39 (spec/40_blocks.md R71, R72; 70_reset_and_hazards.md R183). -/

namespace Sys2Proof.Machine

/-! ## One tracker (40_blocks.md R71) -/

theorem Tracker.fires_onClock_same (t : Tracker) (level : Bool) : (t.onClock level).fires level = false := by
  rw [Tracker.fires_eq, Tracker.onClock_current, Bool.and_not_self]

theorem Tracker.onClock_previous {t : Tracker} {level : Bool} (h : level ≠ t.current) :
    (t.onClock level).previous = t.current := by
  rw [Tracker.onClock, if_pos h]

/-- Settles O34: a tracker fires when it held 0 and sees 1, and it holds the level it has last seen. -/
theorem trackerFiresOnRisingEdgeOnly : Obligations.TrackerFiresOnRisingEdgeOnly := by
  refine ⟨fun t level => ⟨t.onClock_current level, Tracker.onClock_previous, t.fires_iff level,
    Tracker.onClock_same (t.onClock_current level), t.fires_onClock_same level⟩, fun t ht => ?samples⟩
  case samples => simp [Tracker.fires_eq, ht]

/-! ## One data cell (20_memory.md R33, R87) -/

theorem cellFires_val {size : Nat} (ts : Vector Tracker size) (level : Bool) (i : Fin size) :
    cellFires ts level i.val = (ts.get i).fires level :=
  dif_pos i.isLt

/-- Cell `i` after a level: its own tracker, the write enable and its index decide, and no other cell's tracker. -/
theorem State.dataByte_latch (level : Bool) (s : State) (g : Signals) (i : Fin Config.dmemBytes) :
    (latch level s g).dataByte i.val =
      if (s.clocks.dmem.get i).fires level = true ∧ g.control.memWrite = true then
        if i.val = cellIndex Config.dmemBytes g.aluResult then hiByte g.read2
        else if i.val = nextCellIndex Config.dmemBytes g.aluResult then loByte g.read2 else s.dataByte i.val
      else s.dataByte i.val := by
  have h := Memory.readByte_latchCells Config.dmemBytes (cellFires s.clocks.dmem level) g.control.memWrite g.aluResult
    g.read2 s.dmem i.val Config.dmemBytes
  simp only [i.isLt, true_and, cellFires_val] at h
  exact h

/-- Settles O36: the latch of cell `i` under the settled signals, with its tracker's edge spelled out. -/
theorem cellWriteNeedsItsOwnEdge : Obligations.CellWriteNeedsItsOwnEdge := by
  intro level s
  obtain ⟨g, hg, -, hread2⟩ := settle_ok_reads s
  refine ⟨g, latch level s g, hg, clockLevel_of_settle hg level, hread2, latch_imem level s g, fun i => ?_⟩
  rw [State.dataByte_latch]
  simp only [Tracker.fires_iff, and_assoc]
  rfl

/-! ## Sequences of levels from trackers in step (40_blocks.md R72) -/

theorem clockLevels_cons {level : Bool} {s t : State} (h : clockLevel level s = .next t) (rest : List Bool) :
    clockLevels (level :: rest) s = clockLevels rest t := by
  simp [clockLevels, h]

/-- Every state answers a level with the latched signals, and trackers in step stay in step. -/
theorem clockLevel_of_lockStep {s : State} {tr : Tracker} (hs : s.LockStep tr) (level : Bool) :
    ∃ g, settle s = .ok g ∧ clockLevel level s = .next (latch level s g) ∧
      (latch level s g).LockStep (tr.onClock level) := by
  obtain ⟨r, hr⟩ := settle_eq_ok s
  exact ⟨_, hr, clockLevel_of_settle hr level, State.LockStep_latch hs level _⟩

/-- Settles O39: by induction on the levels, each of which every tracker and the one common pair see alike. -/
theorem trackersStayInStep : Obligations.TrackersStayInStep := by
  intro levels
  induction levels with
  | nil => exact fun s tr hs => ⟨s, rfl, hs, rfl⟩
  | cons level rest ih =>
    intro s tr hs
    obtain ⟨g, -, hlevel, hlock⟩ := clockLevel_of_lockStep hs level
    obtain ⟨t, ht, htlock, hlast⟩ := ih _ _ hlock
    refine ⟨t, (clockLevels_cons hlevel rest).trans ht, htlock, ?_⟩
    rw [List.foldl_cons, hlast, Tracker.onClock_current, List.getLast?_cons, Option.getD_some]

/-! ## The two halves of a clock period (70_reset_and_hazards.md R183) -/

/-- The trackers have all last seen a low level; what each saw before may differ. -/
def Trackers.AllLow (c : Trackers) : Prop :=
  (∀ i, (c.regs.get i).current = false) ∧ c.pc.current = false ∧ ∀ i, (c.dmem.get i).current = false

theorem Trackers.AllLow_onClock (c : Trackers) : (c.onClock false).AllLow := by
  refine ⟨fun i => ?regs, ?pc, fun i => ?dmem⟩
  case regs => rw [Trackers.onClock_regs_get, Tracker.onClock_current]
  case pc => rw [Trackers.onClock_pc, Tracker.onClock_current]
  case dmem => rw [Trackers.onClock_dmem_get, Tracker.onClock_current]

theorem Trackers.AllLow_all {tr : Tracker} (h : tr.current = false) : (Trackers.all tr).AllLow := by
  refine ⟨fun i => ?regs, h, fun i => ?dmem⟩
  case regs => rw [Trackers.all_regs_get, h]
  case dmem => rw [Trackers.all_dmem_get, h]

theorem Tracker.fires_low (t : Tracker) : t.fires false = false := by
  rw [Tracker.fires_eq, Bool.false_and]

theorem Tracker.fires_high {t : Tracker} (h : t.current = false) : t.fires true = true :=
  (t.fires_iff true).mpr ⟨h, rfl⟩

/-- No element fires at a low level, whatever its tracker holds. -/
theorem SameArchitecture_latch_low (s : State) (g : Signals) : (latch false s g).SameArchitecture s := by
  refine ⟨State.regs_ext fun r => ?reg, ?pc, latch_imem false s g, ?dmem⟩
  case reg => rw [State.readReg_latch, Tracker.fires_low, latchReg_false]
  case pc => rw [pc_latch, if_neg (by simp)]
  case dmem =>
    have hcell (i : Nat) : cellFires s.clocks.dmem false i = false :=
      cellFires_eq_false (fun j => Tracker.fires_low _) i
    exact Memory.latchCells_eq_self _ _ _ (fun i => by rw [hcell, Bool.false_and]) _

section RisingEdge

variable {s : State} (hlow : s.clocks.AllLow) (g : Signals)
include hlow

theorem readReg_latch_high (r : RegNum) : (latch true s g).readReg r = (edgeUpdate s g).readReg r := by
  obtain ⟨hregs, -, -⟩ := hlow
  rw [State.readReg_latch, Tracker.fires_high (hregs _), latchReg_eq]
  cases hwrite : g.control.regWrite with
  | false => simp [edgeUpdate, hwrite, State.readReg]
  | true =>
    have hreg : (edgeUpdate s g).readReg r = (s.writeReg g.dst g.wbData).readReg r :=
      State.readReg_congr (by simp [edgeUpdate, hwrite]) r
    rw [hreg, State.readReg_writeReg]
    simp [eq_comm]

theorem pc_latch_high : (latch true s g).pc = (edgeUpdate s g).pc := by
  obtain ⟨-, hpc, -⟩ := hlow
  rw [pc_latch, if_pos ⟨hpc, rfl⟩]
  rfl

/-- Cell by cell the data memory is the one of the word write; as canonical lists the two are then equal. -/
theorem dmem_latch_high (hwf : s.dmem.wf Config.dmemBytes = true) : (latch true s g).dmem = (edgeUpdate s g).dmem := by
  obtain ⟨-, -, hdmem⟩ := hlow
  have hwf' : (edgeUpdate s g).dmem.wf Config.dmemBytes = true := by
    rw [edgeUpdate]
    dsimp only
    split
    · exact Memory.wf_writeWord (by decide) _ _ hwf
    · exact hwf
  have hlatch : (latch true s g).dmem.wf Config.dmemBytes = true := Memory.wf_latchCells _ _ _ _ hwf le_rfl
  refine Memory.wf_ext hlatch hwf' fun i => ?_
  by_cases hi : i < Config.dmemBytes
  · refine (State.dataByte_latch true s g ⟨i, hi⟩).trans ?_
    rw [Tracker.fires_high (hdmem _)]
    cases hwrite : g.control.memWrite with
    | false => simp [edgeUpdate, hwrite, State.dataByte]
    | true => simp [edgeUpdate, hwrite, State.dataByte, Memory.readByte_writeWord]
  · rw [Memory.readByte_outside hlatch (by omega), Memory.readByte_outside hwf' (by omega)]

/-- A rising edge that every element sees is the edge of the cycle: each element's own update is its part of R98's. -/
theorem SameArchitecture_latch_high (hcanon : s.MemoriesCanonical) :
    (latch true s g).SameArchitecture (edgeUpdate s g) := by
  obtain ⟨-, hdmem⟩ := hcanon
  exact ⟨State.regs_ext (readReg_latch_high hlow g), pc_latch_high hlow g, latch_imem true s g, dmem_latch_high hlow g hdmem⟩

end RisingEdge

/-- The edge of the settled cycle is the step, which moves the trackers as well. -/
theorem step_of_settle {s : State} {g : Signals} (h : settle s = .ok g) :
    step s = .next (edgeUpdate s g).tickClocks := by
  have hcycle : cycle s = .next (edgeUpdate s g) := by simp [cycle, h]
  rw [cycleIsMeaningOfFetchedInstruction] at hcycle
  exact step_of_exec hcycle

theorem SameArchitecture_tickClocks_right {s t : State} (h : s.SameArchitecture t) : s.SameArchitecture t.tickClocks := by
  simpa only [State.SameArchitecture, State.tickClocks_regs, State.tickClocks_pc, State.tickClocks_imem,
    State.tickClocks_dmem] using h

/-- At a rising edge of every element the core does a step, up to the trackers. -/
theorem step_of_latch_high {s : State} {g : Signals} (hg : settle s = .ok g) (hlow : s.clocks.AllLow)
    (hcanon : s.MemoriesCanonical) : ∃ t, step s = .next t ∧ (latch true s g).SameArchitecture t :=
  ⟨_, step_of_settle hg, SameArchitecture_tickClocks_right (SameArchitecture_latch_high hlow g hcanon)⟩

theorem State.eq_of_sameArchitecture {s t : State} (h : s.SameArchitecture t) (hclocks : s.clocks = t.clocks) : s = t := by
  obtain ⟨regs, pc, imem, dmem, clocks⟩ := s
  obtain ⟨hregs, hpc, himem, hdmem⟩ := h
  subst hregs hpc himem hdmem hclocks
  rfl

theorem State.SameArchitecture.symm {s t : State} (h : s.SameArchitecture t) : t.SameArchitecture s := by
  obtain ⟨hregs, hpc, himem, hdmem⟩ := h
  exact ⟨hregs.symm, hpc.symm, himem.symm, hdmem.symm⟩

theorem State.SameArchitecture.trans {s t u : State} (hst : s.SameArchitecture t) (htu : t.SameArchitecture u) :
    s.SameArchitecture u := by
  obtain ⟨hregs, hpc, himem, hdmem⟩ := hst
  obtain ⟨hregs', hpc', himem', hdmem'⟩ := htu
  exact ⟨hregs.trans hregs', hpc.trans hpc', himem.trans himem', hdmem.trans hdmem'⟩

theorem MemoriesCanonical_congr {s t : State} (h : s.SameArchitecture t) (hs : s.MemoriesCanonical) :
    t.MemoriesCanonical := by
  obtain ⟨-, -, himem, hdmem⟩ := h
  rwa [State.MemoriesCanonical, himem, hdmem] at hs

/-- Settles O41: the low level changes only the trackers, all of which it leaves low; so every element fires at the high one. -/
theorem lowThenHighLevelIsOneStep : Obligations.LowThenHighLevelIsOneStep := by
  intro s hcanon
  obtain ⟨r, hr⟩ := settle_eq_ok s
  generalize settleWith s _ _ _ _ _ _ r = g at hr
  have hhold := SameArchitecture_latch_low s g
  have hsettle : settle (latch false s g) = .ok g := (settle_congr hhold).trans hr
  have hlow : (latch false s g).clocks.AllLow := by
    rw [latch_clocks]
    exact Trackers.AllLow_onClock s.clocks
  obtain ⟨u, hu, huarch⟩ := step_of_latch_high hsettle hlow (MemoriesCanonical_congr hhold.symm hcanon)
  obtain ⟨t, ht⟩ := step_eq_next s
  have harch := huarch.trans (SameArchitecture_step hhold hu ht)
  have hclocks : (latch true (latch false s g) g).clocks = t.clocks := by
    obtain ⟨v, -, rfl⟩ := exec_of_step ht
    rw [latch_clocks, latch_clocks, Trackers.onClock_low_high, State.tickClocks_clocks]
  rw [clockLevels_cons (clockLevel_of_settle hr false), clockLevels_cons (clockLevel_of_settle hsettle true), clockLevels,
    State.eq_of_sameArchitecture harch hclocks, ht]

/-! ## As many steps as rising edges (70_reset_and_hazards.md R183, R184) -/

/-- A level from trackers in step is a step at a rising edge and no step else, up to the trackers. -/
theorem runEdges_of_latch {s : State} {g : Signals} {tr : Tracker} (hg : settle s = .ok g) (hs : s.LockStep tr)
    (hcanon : s.MemoriesCanonical) (level : Bool) :
    ∃ t, runEdges (if level && !tr.current then 1 else 0) s = .next t ∧ (latch level s g).SameArchitecture t := by
  rw [← Tracker.fires_eq]
  cases hfires : tr.fires level with
  | false => exact ⟨s, rfl, SameArchitecture_latch_of_no_edge hs hfires g⟩
  | true =>
    obtain ⟨hcurrent, rfl⟩ := (tr.fires_iff level).mp hfires
    have hlow : s.clocks.AllLow := by
      rw [hs]
      exact Trackers.AllLow_all hcurrent
    obtain ⟨t, ht, harch⟩ := step_of_latch_high hg hlow hcanon
    exact ⟨t, runEdges_succ_of_step ht 0, harch⟩

theorem runEdges_add {s t : State} {j : Nat} (h : runEdges j s = .next t) (k : Nat) :
    runEdges (j + k) s = runEdges k t := by
  induction j generalizing s with
  | zero => cases h; rw [Nat.zero_add]
  | succ j ih =>
    obtain ⟨u, hu⟩ := step_eq_next s
    rw [runEdges_succ_of_step hu] at h
    rw [Nat.succ_add, runEdges_succ_of_step hu, ih h]

theorem MemoriesCanonical_of_runEdges {s t : State} {k : Nat} (hs : s.MemoriesCanonical) (h : runEdges k s = .next t) :
    t.MemoriesCanonical := by
  obtain ⟨u, hu, hcanon⟩ := runEdges_keeps stepKeepsMemoriesCanonical k s hs
  cases h.symm.trans hu
  exact hcanon

/-- Settles O42: by induction on the levels; the state after the first level and the one after its step or none have one
architecture, so equally long runs from them do. -/
theorem instructionsExecutedEqualRisingEdges : Obligations.InstructionsExecutedEqualRisingEdges := by
  intro levels
  induction levels with
  | nil => exact fun s tr _ _ => ⟨s, s, rfl, rfl, rfl, rfl, rfl, rfl⟩
  | cons level rest ih =>
    intro s tr hcanon hs
    obtain ⟨g, hg, hlevel, hlock⟩ := clockLevel_of_lockStep hs level
    obtain ⟨s₁, hs₁, harch⟩ := runEdges_of_latch hg hs hcanon level
    have hcanon₁ : (latch level s g).MemoriesCanonical :=
      MemoriesCanonical_congr harch.symm (MemoriesCanonical_of_runEdges hcanon hs₁)
    obtain ⟨t, v, ht, hv, htv⟩ := ih _ _ hcanon₁ hlock
    rw [Tracker.onClock_current] at hv
    obtain ⟨v', u, hv', hu, hvu⟩ := runEdges_sameArchitecture (risingEdges level rest) harch
    cases hv.symm.trans hv'
    refine ⟨t, u, (clockLevels_cons hlevel rest).trans ht, ?_, htv.trans hvu⟩
    rw [risingEdges, runEdges_add hs₁, hu]

end Sys2Proof.Machine
end

section
/-! The reset and launch states: what a program's cells hold, and the statements O53, O45 and O52 (spec/10_state.md R26, R27;
30_encoding.md R59; 70_reset_and_hazards.md R171, R172). -/

namespace Sys2Proof.Machine

/-! ## A program in the instruction memory (R172)

Instruction `k` lies at bytes `2k` and `2k + 1`; sixteen fit without wrapping. -/

theorem cellIndex_norm16 {k : Nat} (hk : k < 16) : cellIndex Config.imemBytes (norm16 (2 * k)) = 2 * k := by
  rw [cellIndex_imem, norm16, BitVec.toNat_ofNat]; omega

theorem nextCellIndex_norm16 {k : Nat} (hk : k < 16) : nextCellIndex Config.imemBytes (norm16 (2 * k)) = 2 * k + 1 := by
  rw [nextCellIndex_imem, norm16, BitVec.toNat_ofNat]; omega

/-- Laying out instructions from number `k` on leaves the cells before and after them alone. -/
theorem readByte_writeProgram_outside (words : List Word) :
    ∀ (m : Memory) (k j : Nat), k + words.length ≤ 16 → j < 2 * k ∨ 2 * (k + words.length) ≤ j →
      (m.writeProgram Config.imemBytes k words).readByte j = m.readByte j := by
  induction words with
  | nil => exact fun _ _ _ _ _ => rfl
  | cons w rest ih =>
    intro m k j hfit hout
    rw [List.length_cons] at hfit hout
    rw [Memory.writeProgram, ih _ _ _ (by omega) (by omega), Memory.readByte_writeWord, cellIndex_norm16 (by omega),
      nextCellIndex_norm16 (by omega), if_neg (by omega), if_neg (by omega)]

/-- Laying out instructions from number `k` on puts the `n`th of them at bytes `2(k + n)` and `2(k + n) + 1`. -/
theorem readByte_writeProgram_word (words : List Word) :
    ∀ (m : Memory) (k n : Nat) (w : Word), k + words.length ≤ 16 → words[n]? = some w →
      (m.writeProgram Config.imemBytes k words).readByte (2 * (k + n)) = hiByte w ∧
        (m.writeProgram Config.imemBytes k words).readByte (2 * (k + n) + 1) = loByte w := by
  induction words with
  | nil => exact fun _ _ _ _ _ h => absurd h (by simp)
  | cons v rest ih =>
    intro m k n w hfit hn
    rw [List.length_cons] at hfit
    rw [Memory.writeProgram]
    cases n with
    | zero =>
      obtain rfl : v = w := by simpa using hn
      rw [Nat.add_zero k, readByte_writeProgram_outside _ _ _ _ (by omega) (by omega),
        readByte_writeProgram_outside _ _ _ _ (by omega) (by omega), Memory.readByte_writeWord, Memory.readByte_writeWord,
        cellIndex_norm16 (by omega), nextCellIndex_norm16 (by omega), if_pos rfl, if_neg (by omega), if_pos rfl]
      exact ⟨rfl, rfl⟩
    | succ n =>
      rw [List.getElem?_cons_succ] at hn
      have h := ih (m.writeWord Config.imemBytes (norm16 (2 * k)) v) (k + 1) n w (by omega) hn
      rwa [Nat.add_assoc, Nat.add_comm 1] at h

/-! ## The launch state -/

section Launch

variable (init : Init)

@[simp] theorem State.launch_regs : (State.launch init).regs = init.regs := rfl
@[simp] theorem State.launch_pc : (State.launch init).pc = init.pc := rfl
@[simp] theorem State.launch_clocks : (State.launch init).clocks = Trackers.all Tracker.atReset := rfl

/-- A program that fits is placed whole. -/
theorem State.launch_instrByte {init : Init} (hfit : init.program.length ≤ 16) (i : Nat) :
    (State.launch init).instrByte i = (Memory.writeProgram Config.imemBytes [] 0 init.program).readByte i := by
  rw [State.instrByte, State.launch, List.take_of_length_le hfit]

theorem MemoriesCanonical_launch : (State.launch init).MemoriesCanonical :=
  ⟨Memory.wf_writeProgram (by decide) _ _ rfl, Memory.wf_writeCells (by decide) _ rfl⟩

end Launch

/-- The word fetched is the two bytes at the program counter. -/
theorem State.fetchWord_eq_append (s : State) :
    s.fetchWord = s.instrByte (cellIndex Config.imemBytes s.pc) ++ s.instrByte (nextCellIndex Config.imemBytes s.pc) := rfl

/-- Settles O53: the cells of each instruction are its own bytes, so the word fetched there is the instruction's. -/
theorem launchPlacesProgramFromByteZero : Obligations.LaunchPlacesProgramFromByteZero := by
  intro init hfit
  refine ⟨fun k w hk => ?placed, fun i hi => ?after, State.launch_pc init, State.launch_regs init⟩
  case placed =>
    obtain ⟨hk_lt, -⟩ := List.getElem?_eq_some_iff.mp hk
    obtain ⟨hhigh, hlow⟩ := readByte_writeProgram_word init.program [] 0 k w (by omega) hk
    rw [Nat.zero_add, ← State.launch_instrByte hfit] at hhigh hlow
    refine ⟨hhigh, hlow, ?_⟩
    have hfetch : ((State.launch init).setPc (norm16 (2 * k))).fetchWord =
        (State.launch init).instrByte (2 * k) ++ (State.launch init).instrByte (2 * k + 1) := by
      rw [State.fetchWord_eq_append, State.setPc_pc, cellIndex_norm16 (by omega), nextCellIndex_norm16 (by omega)]
      rfl
    rw [State.fetchInstr, hfetch, hhigh, hlow, hiByte_append_loByte]
  case after =>
    rw [State.launch_instrByte hfit, readByte_writeProgram_outside _ _ _ _ (by omega) (by omega)]
    rfl

/-- Settles O45: every write of the launch keeps the canonical form, and the trackers and the pc are the preset ones. -/
theorem launchStatesMeetInvariants : Obligations.LaunchStatesMeetInvariants :=
  ⟨⟨rfl, rfl⟩, rfl, rfl, fun init => ⟨MemoriesCanonical_launch init, State.launch_clocks init, Iff.rfl⟩⟩

theorem readReg_reset (r : RegNum) : State.reset.readReg r = 0 := by
  rw [State.readReg, State.reset, Vector.getElem_replicate]

/-- Settles O52: the reset state is a literal whose registers are copies of 0 and whose memories list no cell. -/
theorem resetHoldsZerosEverywhere : Obligations.ResetHoldsZerosEverywhere :=
  ⟨rfl, readReg_reset, Memory.readByte_nil, Memory.readByte_nil, rfl, rfl⟩

end Sys2Proof.Machine
end
